-- ==== Sys2Proof/Word.lean ====
section
/-! DEFINITION. The machine's words: bytes, 16-bit words, and the two operand widths of 00_scope.md R8 and R9. -/

namespace Sys2Proof

/-- A byte: 8 bits, bit 7 most significant (R8). -/
abbrev Byte := BitVec 8

/-- A word: 16 bits, bit 15 most significant (R8); registers, addresses and PC are words (R6). -/
abbrev Word := BitVec 16

/-- The operand width that an instruction's `w` bit selects (R9): 0 is byte, 1 is word. -/
inductive Width where
  | byte
  | word
deriving DecidableEq, Repr

/-- `W` of R9: the operand width in bits. -/
abbrev Width.bits : Width → Nat
  | .byte => 8
  | .word => 16

/-- How many bytes of memory an access of this width touches: the `n` of R57 and R117. -/
def Width.bytes : Width → Nat
  | .byte => 1
  | .word => 2

end Sys2Proof
end

