-- ==== Sys2Proof/Config.lean ====
section
/-! DEFINITION. The block's parameters (00_scope.md R6): the fixed sizes, and the type of the cycle-cost table
CYCLES (44_cycle_cost.md R198). The table itself is a field of State (any table may be supplied for a run); its
default values stand in Machine/Cost.lean. The spec leaves no value undetermined (R236), so there is no free value. -/

namespace Sys2Proof.Config

/-- MEM_SIZE of R6: bytes of data memory. -/
def memSize : Nat := 65536

/-- IBUF_MAX of R6: the most bytes the instruction buffer holds. -/
def ibufMax : Nat := 1024

/-- The longest instruction, in bytes (30_encoding.md R89). -/
def maxInstrLen : Nat := 6

end Sys2Proof.Config

namespace Sys2Proof

/-- CYCLES, the cycle-cost table: the thirty-one fields of R198 under the spec's own names (camel-cased), each a
natural number. -/
structure CycleTable where
  eaDirect       : Nat
  eaSingle       : Nat
  eaSingleDisp   : Nat
  eaPair03       : Nat
  eaPair03Disp   : Nat
  eaPair12       : Nat
  eaPair12Disp   : Nat
  movRR          : Nat
  movRM          : Nat
  movMR          : Nat
  movRI          : Nat
  movMI          : Nat
  movAM          : Nat
  aluRR          : Nat
  aluRM          : Nat
  aluMR          : Nat
  aluRI          : Nat
  aluMI          : Nat
  aluAI          : Nat
  cmpRR          : Nat
  cmpRM          : Nat
  cmpMR          : Nat
  cmpRI          : Nat
  cmpMI          : Nat
  cmpAI          : Nat
  jccTaken       : Nat
  jccNotTaken    : Nat
  loopNotTaken   : Nat
  loopzNotTaken  : Nat
  loopnzNotTaken : Nat
  jcxzNotTaken   : Nat
deriving DecidableEq, Repr

end Sys2Proof
end

