-- ==== Sys2Proof/Syntax.lean ====
section
/-! DEFINITION. The instruction set as syntax: the operand forms, the decoded-instruction record of 30_encoding.md
R91, and Instr, one constructor per row of spec/opcode_table.json. Meaning is given in Machine/ alone. -/

namespace Sys2Proof

/-- A 3-bit register field code (10_state.md R22). Which register it names depends on the width. -/
inductive RegCode where
  | r0 | r1 | r2 | r3 | r4 | r5 | r6 | r7
deriving DecidableEq, Repr

/-- The direction bit `d` (30_encoding.md R71): which of the reg field and r/m is the destination. -/
inductive Dir where
  | toRm   -- d = 0: r/m is the destination, reg the source
  | toReg  -- d = 1: reg is the destination, r/m the source
deriving DecidableEq, Repr

/-- The eight base formulas indexed by the r/m field, in field order 0 to 7 (40_operands.md R112). -/
inductive Base where
  | bxSi | bxDi | bpSi | bpDi | si | di | bp | bx
deriving DecidableEq, Repr

/-- What the mod and rm fields and the displacement bytes give (30_encoding.md R72, R73; 40_operands.md R118). -/
inductive Rm where
  | reg    (code : RegCode)          -- mod 3: the register named by rm
  | base   (b : Base)                -- mod 0, rm other than 6: no displacement
  | direct (addr : Word)             -- mod 0, rm 6: a 16-bit address
  | disp8  (b : Base) (disp : Byte)  -- mod 1: a signed 8-bit displacement
  | disp16 (b : Base) (disp : Word)  -- mod 2: a 16-bit displacement
deriving DecidableEq, Repr

/-- An immediate of the instruction's width (30_encoding.md R74, classes b, c and g): its case IS the width bit. -/
inductive Imm where
  | byte (v : Byte)  -- w = 0
  | word (v : Word)  -- w = 1
deriving DecidableEq, Repr

/-- The immediate field of class (f) as encoded, with its `s` and `w` bits (30_encoding.md R74). -/
inductive ImmS where
  | byte (s : Bool) (v : Byte)  -- w = 0, one byte, whatever s is (0x80 and 0x82)
  | word (v : Word)             -- s = 0, w = 1: two bytes
  | sext (v : Byte)             -- s = 1, w = 1: one byte, sign-extended
deriving DecidableEq, Repr

/-- The 3-bit operation field of the arithmetic group, in field order 0 to 7 (30_encoding.md R75). -/
inductive ArithOp where
  | add | or | adc | sbb | and | sub | xor | cmp
deriving DecidableEq, Repr

/-- The condition field `cc` of class (h), in field order 0 to 15 (43_jumps.md R160). -/
inductive Cond where
  | o | no | b | nb | z | nz | be | a | s | ns | p | np | l | nl | le | g
deriving DecidableEq, Repr

/-- The selector `cc` of class (i), in field order 0 to 3 (30_encoding.md R84). -/
inductive LoopKind where
  | loopnz | loopz | loop | jcxz
deriving DecidableEq, Repr

/-- The decoded-instruction record (30_encoding.md R91): its class and exactly the fields R91 gives that class.
Decode.lean has R91's fields one by one (`Record.w?`, `Record.mod?`, ...). -/
inductive Record where
  | movRm      (d : Dir) (w : Width) (reg : RegCode) (rm : Rm)                 -- class (a)
  | movRmImm   (rm : Rm) (imm : Imm)                                           -- class (b)
  | movRegImm  (reg : RegCode) (imm : Imm)                                     -- class (c)
  | movAcc     (w : Width) (addr : Word)                                       -- class (d)
  | arithRm    (op : ArithOp) (d : Dir) (w : Width) (reg : RegCode) (rm : Rm)  -- class (e)
  | arithRmImm (op : ArithOp) (rm : Rm) (imm : ImmS)                           -- class (f)
  | arithAcc   (op : ArithOp) (imm : Imm)                                      -- class (g)
  | jcc        (cc : Cond) (disp : Byte)                                       -- class (h)
  | loopj      (cc : LoopKind) (disp : Byte)                                   -- class (i)
deriving DecidableEq, Repr

/-- The instructions: one constructor per row of spec/opcode_table.json, in the table's order. -/
inductive Instr where
  | movRm     (d : Dir) (w : Width) (reg : RegCode) (rm : Rm)  -- mov, class (a), R131
  | movRmImm  (rm : Rm) (imm : Imm)                            -- mov, class (b), R132
  | movRegImm (reg : RegCode) (imm : Imm)                      -- mov, class (c), R133
  | movAcc    (w : Width) (addr : Word)                        -- mov, class (d), R134
  | addRm    (d : Dir) (w : Width) (reg : RegCode) (rm : Rm)  -- add, class (e), R147
  | addRmImm (rm : Rm) (imm : ImmS)                           -- add, class (f), R147
  | addAcc   (imm : Imm)                                      -- add, class (g), R147
  | orRm    (d : Dir) (w : Width) (reg : RegCode) (rm : Rm)  -- or, class (e), R148
  | orRmImm (rm : Rm) (imm : ImmS)                           -- or, class (f), R148
  | orAcc   (imm : Imm)                                      -- or, class (g), R148
  | adcRm    (d : Dir) (w : Width) (reg : RegCode) (rm : Rm)  -- adc, class (e), R149
  | adcRmImm (rm : Rm) (imm : ImmS)                           -- adc, class (f), R149
  | adcAcc   (imm : Imm)                                      -- adc, class (g), R149
  | sbbRm    (d : Dir) (w : Width) (reg : RegCode) (rm : Rm)  -- sbb, class (e), R150
  | sbbRmImm (rm : Rm) (imm : ImmS)                           -- sbb, class (f), R150
  | sbbAcc   (imm : Imm)                                      -- sbb, class (g), R150
  | andRm    (d : Dir) (w : Width) (reg : RegCode) (rm : Rm)  -- and, class (e), R151
  | andRmImm (rm : Rm) (imm : ImmS)                           -- and, class (f), R151
  | andAcc   (imm : Imm)                                      -- and, class (g), R151
  | subRm    (d : Dir) (w : Width) (reg : RegCode) (rm : Rm)  -- sub, class (e), R152
  | subRmImm (rm : Rm) (imm : ImmS)                           -- sub, class (f), R152
  | subAcc   (imm : Imm)                                      -- sub, class (g), R152
  | xorRm    (d : Dir) (w : Width) (reg : RegCode) (rm : Rm)  -- xor, class (e), R153
  | xorRmImm (rm : Rm) (imm : ImmS)                           -- xor, class (f), R153
  | xorAcc   (imm : Imm)                                      -- xor, class (g), R153
  | cmpRm    (d : Dir) (w : Width) (reg : RegCode) (rm : Rm)  -- cmp, class (e), R154
  | cmpRmImm (rm : Rm) (imm : ImmS)                           -- cmp, class (f), R154
  | cmpAcc   (imm : Imm)                                      -- cmp, class (g), R154
  | jo (disp : Byte)  -- class (h), R163
  | jno (disp : Byte)  -- class (h), R164
  | jb (disp : Byte)  -- class (h), R165
  | jnb (disp : Byte)  -- class (h), R166
  | jz (disp : Byte)  -- class (h), R167
  | jnz (disp : Byte)  -- class (h), R162
  | jbe (disp : Byte)  -- class (h), R168
  | ja (disp : Byte)  -- class (h), R169
  | js (disp : Byte)  -- class (h), R170
  | jns (disp : Byte)  -- class (h), R171
  | jp (disp : Byte)  -- class (h), R172
  | jnp (disp : Byte)  -- class (h), R173
  | jl (disp : Byte)  -- class (h), R174
  | jnl (disp : Byte)  -- class (h), R175
  | jle (disp : Byte)  -- class (h), R176
  | jg (disp : Byte)  -- class (h), R177
  | loopnz (disp : Byte)  -- class (i), R178
  | loopz (disp : Byte)  -- class (i), R179
  | loop (disp : Byte)  -- class (i), R180
  | jcxz (disp : Byte)  -- class (i), R181
deriving DecidableEq, Repr

end Sys2Proof
end

