-- ==== Sys2Proof/WellFormed.lean ====
section
/-! DEFINITION. The one check the syntax needs: mod 0 with rm 6 is the direct address (30_encoding.md R73;
40_operands.md R114), so the form "mod 0, base BP alone" has no encoding and no decoder yields it. Every other term
of Instr is the decoding of some byte sequence. -/

namespace Sys2Proof

/-- An addressing form that mod, rm and displacement bytes can express: every form but `[bp]` in mod 0 (R114). -/
def Rm.wf : Rm → Bool
  | .base .bp => false
  | .base .bxSi | .base .bxDi | .base .bpSi | .base .bpDi | .base .si | .base .di | .base .bx => true
  | .reg _ | .direct _ | .disp8 .. | .disp16 .. => true

/-- A record is well-formed when its addressing form, if it has one, is. -/
def Record.wf : Record → Bool
  | .movRm _ _ _ rm | .movRmImm rm _ | .arithRm _ _ _ _ rm | .arithRmImm _ rm _ => rm.wf
  | .movRegImm .. | .movAcc .. | .arithAcc .. | .jcc .. | .loopj .. => true

/-- An instruction is well-formed when its addressing form, if it has one, is. -/
def Instr.wf : Instr → Bool
  | .movRm _ _ _ rm | .movRmImm rm _ => rm.wf
  | .addRm _ _ _ rm | .addRmImm rm _ => rm.wf
  | .orRm _ _ _ rm | .orRmImm rm _ => rm.wf
  | .adcRm _ _ _ rm | .adcRmImm rm _ => rm.wf
  | .sbbRm _ _ _ rm | .sbbRmImm rm _ => rm.wf
  | .andRm _ _ _ rm | .andRmImm rm _ => rm.wf
  | .subRm _ _ _ rm | .subRmImm rm _ => rm.wf
  | .xorRm _ _ _ rm | .xorRmImm rm _ => rm.wf
  | .cmpRm _ _ _ rm | .cmpRmImm rm _ => rm.wf
  | .movRegImm .. | .movAcc .. => true
  | .addAcc _ | .orAcc _ | .adcAcc _ | .sbbAcc _ | .andAcc _ | .subAcc _ | .xorAcc _ | .cmpAcc _ => true
  | .jo _ | .jno _ | .jb _ | .jnb _ | .jz _ | .jnz _ | .jbe _ | .ja _ => true
  | .js _ | .jns _ | .jp _ | .jnp _ | .jl _ | .jnl _ | .jle _ | .jg _ => true
  | .loopnz _ | .loopz _ | .loop _ | .jcxz _ => true

end Sys2Proof
end

