-- ==== Sys2Proof/Decode.lean ====
section
/-! DEFINITION. The byte-stream decoder (30_encoding.md R70 to R93), total on any bytes, and after it the encoder.
Bit fields, byte order and sign extension are decided here, once. Every bit position and opcode value is the one the
spec gives (its decision D27). -/

namespace Sys2Proof

/-! ## Bytes, words and bit fields -/

/-- `v[7:0]` of a word (R8). -/
def lowByte (v : Word) : Byte := v.extractLsb' 0 8

/-- `v[15:8]` of a word (R8). -/
def highByte (v : Word) : Byte := v.extractLsb' 8 8

/-- `hi ++ lo`: the word whose high and low bytes these are (R8). -/
def joinBytes (hi lo : Byte) : Word := hi ++ lo

/-- `sext_16` of a byte (00_scope.md R9). -/
def sext16 (b : Byte) : Word := b.signExtend 16

/-- The bit value of a Boolean. -/
def bit (b : Bool) : BitVec 1 := BitVec.ofBool b

/-! ## Field codes (R71, R72, R75, R83, R84; 10_state.md R22; 40_operands.md R112) -/

/-- The register field (R22): field value to name. -/
def RegCode.ofCode (c : BitVec 3) : RegCode :=
  match c.getLsbD 2, c.getLsbD 1, c.getLsbD 0 with
  | false, false, false => .r0
  | false, false, true => .r1
  | false, true, false => .r2
  | false, true, true => .r3
  | true, false, false => .r4
  | true, false, true => .r5
  | true, true, false => .r6
  | true, true, true => .r7

/-- The register field (R22): name to field value. -/
def RegCode.code : RegCode → BitVec 3
  | .r0 => 0
  | .r1 => 1
  | .r2 => 2
  | .r3 => 3
  | .r4 => 4
  | .r5 => 5
  | .r6 => 6
  | .r7 => 7

/-- The r/m field of modes 0, 1 and 2 (R112): field value to name. -/
def Base.ofCode (c : BitVec 3) : Base :=
  match c.getLsbD 2, c.getLsbD 1, c.getLsbD 0 with
  | false, false, false => .bxSi
  | false, false, true => .bxDi
  | false, true, false => .bpSi
  | false, true, true => .bpDi
  | true, false, false => .si
  | true, false, true => .di
  | true, true, false => .bp
  | true, true, true => .bx

/-- The r/m field of modes 0, 1 and 2 (R112): name to field value. -/
def Base.code : Base → BitVec 3
  | .bxSi => 0
  | .bxDi => 1
  | .bpSi => 2
  | .bpDi => 3
  | .si => 4
  | .di => 5
  | .bp => 6
  | .bx => 7

/-- The operation selector `op` (R75): field value to name. -/
def ArithOp.ofCode (c : BitVec 3) : ArithOp :=
  match c.getLsbD 2, c.getLsbD 1, c.getLsbD 0 with
  | false, false, false => .add
  | false, false, true => .or
  | false, true, false => .adc
  | false, true, true => .sbb
  | true, false, false => .and
  | true, false, true => .sub
  | true, true, false => .xor
  | true, true, true => .cmp

/-- The operation selector `op` (R75): name to field value. -/
def ArithOp.code : ArithOp → BitVec 3
  | .add => 0
  | .or => 1
  | .adc => 2
  | .sbb => 3
  | .and => 4
  | .sub => 5
  | .xor => 6
  | .cmp => 7

/-- The condition selector of class (h) (R160): field value to name. -/
def Cond.ofCode (c : BitVec 4) : Cond :=
  match c.getLsbD 3, c.getLsbD 2, c.getLsbD 1, c.getLsbD 0 with
  | false, false, false, false => .o
  | false, false, false, true => .no
  | false, false, true, false => .b
  | false, false, true, true => .nb
  | false, true, false, false => .z
  | false, true, false, true => .nz
  | false, true, true, false => .be
  | false, true, true, true => .a
  | true, false, false, false => .s
  | true, false, false, true => .ns
  | true, false, true, false => .p
  | true, false, true, true => .np
  | true, true, false, false => .l
  | true, true, false, true => .nl
  | true, true, true, false => .le
  | true, true, true, true => .g

/-- The condition selector of class (h) (R160): name to field value. -/
def Cond.code : Cond → BitVec 4
  | .o => 0
  | .no => 1
  | .b => 2
  | .nb => 3
  | .z => 4
  | .nz => 5
  | .be => 6
  | .a => 7
  | .s => 8
  | .ns => 9
  | .p => 10
  | .np => 11
  | .l => 12
  | .nl => 13
  | .le => 14
  | .g => 15

/-- The selector of class (i) (R84): field value to name. -/
def LoopKind.ofCode (c : BitVec 2) : LoopKind :=
  match c.getLsbD 1, c.getLsbD 0 with
  | false, false => .loopnz
  | false, true => .loopz
  | true, false => .loop
  | true, true => .jcxz

/-- The selector of class (i) (R84): name to field value. -/
def LoopKind.code : LoopKind → BitVec 2
  | .loopnz => 0
  | .loopz => 1
  | .loop => 2
  | .jcxz => 3

/-- The width bit `w` (R71). -/
def Width.ofBit : Bool → Width
  | false => .byte
  | true => .word

/-- The width bit `w` of a width (R71). -/
def Width.toBit : Width → Bool
  | .byte => false
  | .word => true

/-- The direction bit `d` (R71). -/
def Dir.ofBit : Bool → Dir
  | false => .toRm
  | true => .toReg

/-- The direction bit `d` of a direction (R71). -/
def Dir.toBit : Dir → Bool
  | .toRm => false
  | .toReg => true

/-! ## The opcode byte: the nine classes (R75 to R84) -/

/-- What the first byte alone decides: the class and the fields that stand in it (R71, R75). -/
inductive Opcode where
  | a (d : Dir) (w : Width)
  | b (w : Width)
  | c (w : Width) (reg : RegCode)
  | d (w : Width)
  | e (op : ArithOp) (d : Dir) (w : Width)
  | f (s : Bool) (w : Width)
  | g (op : ArithOp) (w : Width)
  | h (cc : Cond)
  | i (cc : LoopKind)
deriving DecidableEq, Repr

/-- Classification of the leading byte by fixed masks, in the priority order of R75; none where no class matches
(R86). -/
def classify (b0 : Byte) : Option Opcode :=
  if b0 &&& 0xFC = 0x88 then some (.a (.ofBit (b0.getLsbD 1)) (.ofBit (b0.getLsbD 0)))
  else if b0 &&& 0xFE = 0xC6 then some (.b (.ofBit (b0.getLsbD 0)))
  else if b0 &&& 0xF0 = 0xB0 then some (.c (.ofBit (b0.getLsbD 3)) (.ofCode (b0.extractLsb' 0 3)))
  else if b0 &&& 0xFE = 0xA0 then some (.d (.ofBit (b0.getLsbD 0)))
  else if b0 &&& 0xC4 = 0x00 then
    some (.e (.ofCode (b0.extractLsb' 3 3)) (.ofBit (b0.getLsbD 1)) (.ofBit (b0.getLsbD 0)))
  else if b0 &&& 0xFC = 0x80 then some (.f (b0.getLsbD 1) (.ofBit (b0.getLsbD 0)))
  else if b0 &&& 0xC6 = 0x04 then some (.g (.ofCode (b0.extractLsb' 3 3)) (.ofBit (b0.getLsbD 0)))
  else if b0 &&& 0xF0 = 0x70 then some (.h (.ofCode (b0.extractLsb' 0 4)))
  else if b0 &&& 0xFC = 0xE0 then some (.i (.ofCode (b0.extractLsb' 0 2)))
  else none

/-! ## The bytes after the opcode byte (R72, R73, R74) -/

/-- One byte, sign-extended or not by its reader; none where the loaded bytes end (R90). -/
def takeByte : List Byte → Option (Byte × List Byte)
  | [] => none
  | b :: rest => some (b, rest)

/-- `IWord` of 20_memory.md R54: two bytes, low byte first. -/
def takeWord : List Byte → Option (Word × List Byte)
  | lo :: hi :: rest => some (joinBytes hi lo, rest)
  | [_] | [] => none

/-- The r/m operand of an addressing byte `b1` and its displacement bytes (R72, R73). -/
def takeRm (b1 : Byte) (rest : List Byte) : Option (Rm × List Byte) :=
  let base := Base.ofCode (b1.extractLsb' 0 3)
  match b1.getLsbD 7, b1.getLsbD 6 with
  | false, false =>
    if base = .bp then (takeWord rest).map fun (a, rest) => (.direct a, rest) else some (.base base, rest)
  | false, true => (takeByte rest).map fun (d, rest) => (.disp8 base d, rest)
  | true, false => (takeWord rest).map fun (d, rest) => (.disp16 base d, rest)
  | true, true => some (.reg (.ofCode (b1.extractLsb' 0 3)), rest)

/-- The immediate of classes (b), (c) and (g) (R74). -/
def takeImm (w : Width) (rest : List Byte) : Option (Imm × List Byte) :=
  match w with
  | .byte => (takeByte rest).map fun (v, rest) => (.byte v, rest)
  | .word => (takeWord rest).map fun (v, rest) => (.word v, rest)

/-- The immediate of class (f): two bytes only when s = 0 and w = 1 (R74). -/
def takeImmS (s : Bool) (w : Width) (rest : List Byte) : Option (ImmS × List Byte) :=
  match w, s with
  | .byte, s => (takeByte rest).map fun (v, rest) => (.byte s v, rest)
  | .word, false => (takeWord rest).map fun (v, rest) => (.word v, rest)
  | .word, true => (takeByte rest).map fun (v, rest) => (.sext v, rest)

/-- The record of a classified instruction from the bytes after its first; none where the loaded bytes end before
the instruction does (R90, R93). -/
def takeRecord (oc : Opcode) (rest : List Byte) : Option Record :=
  match oc with
  | .a d w => do
    let (b1, rest) ← takeByte rest
    let (rm, _) ← takeRm b1 rest
    return .movRm d w (.ofCode (b1.extractLsb' 3 3)) rm
  | .b w => do
    let (b1, rest) ← takeByte rest
    let (rm, rest) ← takeRm b1 rest
    let (imm, _) ← takeImm w rest
    return .movRmImm rm imm
  | .c w reg => do
    let (imm, _) ← takeImm w rest
    return .movRegImm reg imm
  | .d w => do
    let (addr, _) ← takeWord rest
    return .movAcc w addr
  | .e op d w => do
    let (b1, rest) ← takeByte rest
    let (rm, _) ← takeRm b1 rest
    return .arithRm op d w (.ofCode (b1.extractLsb' 3 3)) rm
  | .f s w => do
    let (b1, rest) ← takeByte rest
    let (rm, rest) ← takeRm b1 rest
    let (imm, _) ← takeImmS s w rest
    return .arithRmImm (.ofCode (b1.extractLsb' 3 3)) rm imm
  | .g op w => do
    let (imm, _) ← takeImm w rest
    return .arithAcc op imm
  | .h cc => do
    let (disp, _) ← takeByte rest
    return .jcc cc disp
  | .i cc => do
    let (disp, _) ← takeByte rest
    return .loopj cc disp

/-! ## Records and instructions are the same thing, one row of the opcode table each -/

/-- The opcode-table row of a record. -/
def Record.toInstr : Record → Instr
  | .movRm d w reg rm => .movRm d w reg rm
  | .movRmImm rm imm => .movRmImm rm imm
  | .movRegImm reg imm => .movRegImm reg imm
  | .movAcc w addr => .movAcc w addr
  | .arithRm .add d w reg rm => .addRm d w reg rm
  | .arithRmImm .add rm imm => .addRmImm rm imm
  | .arithAcc .add imm => .addAcc imm
  | .arithRm .or d w reg rm => .orRm d w reg rm
  | .arithRmImm .or rm imm => .orRmImm rm imm
  | .arithAcc .or imm => .orAcc imm
  | .arithRm .adc d w reg rm => .adcRm d w reg rm
  | .arithRmImm .adc rm imm => .adcRmImm rm imm
  | .arithAcc .adc imm => .adcAcc imm
  | .arithRm .sbb d w reg rm => .sbbRm d w reg rm
  | .arithRmImm .sbb rm imm => .sbbRmImm rm imm
  | .arithAcc .sbb imm => .sbbAcc imm
  | .arithRm .and d w reg rm => .andRm d w reg rm
  | .arithRmImm .and rm imm => .andRmImm rm imm
  | .arithAcc .and imm => .andAcc imm
  | .arithRm .sub d w reg rm => .subRm d w reg rm
  | .arithRmImm .sub rm imm => .subRmImm rm imm
  | .arithAcc .sub imm => .subAcc imm
  | .arithRm .xor d w reg rm => .xorRm d w reg rm
  | .arithRmImm .xor rm imm => .xorRmImm rm imm
  | .arithAcc .xor imm => .xorAcc imm
  | .arithRm .cmp d w reg rm => .cmpRm d w reg rm
  | .arithRmImm .cmp rm imm => .cmpRmImm rm imm
  | .arithAcc .cmp imm => .cmpAcc imm
  | .jcc .o disp => .jo disp
  | .jcc .no disp => .jno disp
  | .jcc .b disp => .jb disp
  | .jcc .nb disp => .jnb disp
  | .jcc .z disp => .jz disp
  | .jcc .nz disp => .jnz disp
  | .jcc .be disp => .jbe disp
  | .jcc .a disp => .ja disp
  | .jcc .s disp => .js disp
  | .jcc .ns disp => .jns disp
  | .jcc .p disp => .jp disp
  | .jcc .np disp => .jnp disp
  | .jcc .l disp => .jl disp
  | .jcc .nl disp => .jnl disp
  | .jcc .le disp => .jle disp
  | .jcc .g disp => .jg disp
  | .loopj .loopnz disp => .loopnz disp
  | .loopj .loopz disp => .loopz disp
  | .loopj .loop disp => .loop disp
  | .loopj .jcxz disp => .jcxz disp

/-- The decoded-instruction record of an instruction (R91). -/
def Instr.record : Instr → Record
  | .movRm d w reg rm => .movRm d w reg rm
  | .movRmImm rm imm => .movRmImm rm imm
  | .movRegImm reg imm => .movRegImm reg imm
  | .movAcc w addr => .movAcc w addr
  | .addRm d w reg rm => .arithRm .add d w reg rm
  | .addRmImm rm imm => .arithRmImm .add rm imm
  | .addAcc imm => .arithAcc .add imm
  | .orRm d w reg rm => .arithRm .or d w reg rm
  | .orRmImm rm imm => .arithRmImm .or rm imm
  | .orAcc imm => .arithAcc .or imm
  | .adcRm d w reg rm => .arithRm .adc d w reg rm
  | .adcRmImm rm imm => .arithRmImm .adc rm imm
  | .adcAcc imm => .arithAcc .adc imm
  | .sbbRm d w reg rm => .arithRm .sbb d w reg rm
  | .sbbRmImm rm imm => .arithRmImm .sbb rm imm
  | .sbbAcc imm => .arithAcc .sbb imm
  | .andRm d w reg rm => .arithRm .and d w reg rm
  | .andRmImm rm imm => .arithRmImm .and rm imm
  | .andAcc imm => .arithAcc .and imm
  | .subRm d w reg rm => .arithRm .sub d w reg rm
  | .subRmImm rm imm => .arithRmImm .sub rm imm
  | .subAcc imm => .arithAcc .sub imm
  | .xorRm d w reg rm => .arithRm .xor d w reg rm
  | .xorRmImm rm imm => .arithRmImm .xor rm imm
  | .xorAcc imm => .arithAcc .xor imm
  | .cmpRm d w reg rm => .arithRm .cmp d w reg rm
  | .cmpRmImm rm imm => .arithRmImm .cmp rm imm
  | .cmpAcc imm => .arithAcc .cmp imm
  | .jo disp => .jcc .o disp
  | .jno disp => .jcc .no disp
  | .jb disp => .jcc .b disp
  | .jnb disp => .jcc .nb disp
  | .jz disp => .jcc .z disp
  | .jnz disp => .jcc .nz disp
  | .jbe disp => .jcc .be disp
  | .ja disp => .jcc .a disp
  | .js disp => .jcc .s disp
  | .jns disp => .jcc .ns disp
  | .jp disp => .jcc .p disp
  | .jnp disp => .jcc .np disp
  | .jl disp => .jcc .l disp
  | .jnl disp => .jcc .nl disp
  | .jle disp => .jcc .le disp
  | .jg disp => .jcc .g disp
  | .loopnz disp => .loopj .loopnz disp
  | .loopz disp => .loopj .loopz disp
  | .loop disp => .loopj .loop disp
  | .jcxz disp => .loopj .jcxz disp

/-! ## The decoder (R93) -/

/-- The three results of the decode procedure (R93). -/
inductive Decoded where
  | truncated               -- DecodeTruncated: a byte lies at or past LEN (R90)
  | unrecognised (b0 : Byte)  -- no class matches the first byte (R86)
  | instr (i : Instr)
deriving DecidableEq, Repr

/-- The decode procedure on the loaded bytes from PC on (R93). With no byte at all, `IFetch` raises (20_memory.md
R51). -/
def decode : List Byte → Decoded
  | [] => .truncated
  | b0 :: rest =>
    match classify b0 with
    | none => .unrecognised b0
    | some oc =>
      match takeRecord oc rest with
      | none => .truncated
      | some r => .instr r.toInstr

/-! ## Lengths (R73, R74, R89) -/

/-- `DispLen(mod, rm)` of R73. -/
def Rm.dispLen : Rm → Nat
  | .reg _ | .base _ => 0
  | .disp8 .. => 1
  | .direct _ | .disp16 .. => 2

/-- `ImmLen` of R74 for classes (b), (c) and (g). -/
def Imm.len : Imm → Nat
  | .byte _ => 1
  | .word _ => 2

/-- `ImmLen` of R74 for class (f). -/
def ImmS.len : ImmS → Nat
  | .byte .. | .sext _ => 1
  | .word _ => 2

/-- `rec.len` of R91: the length in bytes by the table of R89. -/
def Record.len : Record → Nat
  | .movRm _ _ _ rm => 2 + rm.dispLen
  | .movRmImm rm imm => 2 + rm.dispLen + imm.len
  | .movRegImm _ imm => 1 + imm.len
  | .movAcc .. => 3
  | .arithRm _ _ _ _ rm => 2 + rm.dispLen
  | .arithRmImm _ rm imm => 2 + rm.dispLen + imm.len
  | .arithAcc _ imm => 1 + imm.len
  | .jcc .. | .loopj .. => 2

/-- The length of an instruction in bytes (R89). -/
def Instr.len (i : Instr) : Nat := i.record.len

/-! ## The record's fields, one by one (R91): none where the field is not valid in the class -/

/-- The width bit of an immediate (R74). -/
def Imm.width : Imm → Width
  | .byte _ => .byte
  | .word _ => .word

/-- The value of an immediate, `W` bits wide (R74). -/
def Imm.val : (imm : Imm) → BitVec imm.width.bits
  | .byte v => v
  | .word v => v

/-- The immediate of class (f) after assembly: one byte is sign-extended when s = 1 and w = 1 (R74). -/
def ImmS.assembled : ImmS → Imm
  | .byte _ v => .byte v
  | .word v => .word v
  | .sext v => .word (sext16 v)

/-- The `mod` field of an r/m operand (R72). -/
def Rm.modCode : Rm → BitVec 2
  | .base _ | .direct _ => 0
  | .disp8 .. => 1
  | .disp16 .. => 2
  | .reg _ => 3

/-- The `rm` field of an r/m operand (R72); the direct address is rm 6 (R114). -/
def Rm.rmCode : Rm → BitVec 3
  | .reg c => c.code
  | .base b | .disp8 b _ | .disp16 b _ => b.code
  | .direct _ => 6

/-- `rec.disp` of an r/m operand: 16 bits, 0 where there are no displacement bytes, sign-extended where there is
one, the address itself for the direct form (R73). -/
def Rm.disp : Rm → Word
  | .reg _ | .base _ => 0
  | .direct a => a
  | .disp8 _ d => sext16 d
  | .disp16 _ d => d

/-- The r/m operand of the classes that have an addressing byte: (a), (b), (e), (f) (R91). -/
def Record.rmOperand? : Record → Option Rm
  | .movRm _ _ _ rm | .movRmImm rm _ | .arithRm _ _ _ _ rm | .arithRmImm _ rm _ => some rm
  | .movRegImm .. | .movAcc .. | .arithAcc .. | .jcc .. | .loopj .. => none

/-- `class` of R91. -/
def Record.cls : Record → Char
  | .movRm .. => 'a'
  | .movRmImm .. => 'b'
  | .movRegImm .. => 'c'
  | .movAcc .. => 'd'
  | .arithRm .. => 'e'
  | .arithRmImm .. => 'f'
  | .arithAcc .. => 'g'
  | .jcc .. => 'h'
  | .loopj .. => 'i'

/-- `op` of R91: classes (e), (f), (g). -/
def Record.op? : Record → Option ArithOp
  | .arithRm op .. | .arithRmImm op .. | .arithAcc op .. => some op
  | .movRm .. | .movRmImm .. | .movRegImm .. | .movAcc .. | .jcc .. | .loopj .. => none

/-- `cc` of R91 as a number: 0 to 15 in class (h), 0 to 3 in class (i). -/
def Record.cc? : Record → Option Nat
  | .jcc cc _ => some cc.code.toNat
  | .loopj cc _ => some cc.code.toNat
  | .movRm .. | .movRmImm .. | .movRegImm .. | .movAcc .. | .arithRm .. | .arithRmImm .. | .arithAcc .. => none

/-- `w` of R91: classes (a) to (g). -/
def Record.w? : Record → Option Width
  | .movRm _ w _ _ | .movAcc w _ | .arithRm _ _ w _ _ => some w
  | .movRmImm _ imm | .movRegImm _ imm | .arithAcc _ imm => some imm.width
  | .arithRmImm _ _ imm => some imm.assembled.width
  | .jcc .. | .loopj .. => none

/-- `d` of R91: classes (a) and (e). -/
def Record.d? : Record → Option Dir
  | .movRm d .. | .arithRm _ d .. => some d
  | .movRmImm .. | .movRegImm .. | .movAcc .. | .arithRmImm .. | .arithAcc .. | .jcc .. | .loopj .. => none

/-- The `s` bit of class (f)'s immediate (R74). -/
def ImmS.s : ImmS → Bool
  | .byte s _ => s
  | .word _ => false
  | .sext _ => true

/-- `s` of R91: class (f). -/
def Record.s? : Record → Option Bool
  | .arithRmImm _ _ imm => some imm.s
  | .movRm .. | .movRmImm .. | .movRegImm .. | .movAcc .. | .arithRm .. | .arithAcc .. | .jcc .. | .loopj .. => none

/-- `mod` of R91: classes (a), (b), (e), (f). -/
def Record.mod? (r : Record) : Option (BitVec 2) := r.rmOperand?.map Rm.modCode

/-- `rm` of R91: classes (a), (b), (e), (f). -/
def Record.rm? (r : Record) : Option (BitVec 3) := r.rmOperand?.map Rm.rmCode

/-- `reg` of R91: classes (a), (c), (e). -/
def Record.reg? : Record → Option RegCode
  | .movRm _ _ reg _ | .movRegImm reg _ | .arithRm _ _ _ reg _ => some reg
  | .movRmImm .. | .movAcc .. | .arithRmImm .. | .arithAcc .. | .jcc .. | .loopj .. => none

/-- `disp` of R91: the displacement, direct address or sign-extended jump displacement. -/
def Record.disp? : Record → Option Word
  | .movRm _ _ _ rm | .movRmImm rm _ | .arithRm _ _ _ _ rm | .arithRmImm _ rm _ => some rm.disp
  | .movAcc _ addr => some addr
  | .jcc _ d | .loopj _ d => some (sext16 d)
  | .movRegImm .. | .arithAcc .. => none

/-- `imm` of R91 after assembly: classes (b), (c), (f), (g). -/
def Record.imm? : Record → Option Imm
  | .movRmImm _ imm | .movRegImm _ imm | .arithAcc _ imm => some imm
  | .arithRmImm _ _ imm => some imm.assembled
  | .movRm .. | .movAcc .. | .arithRm .. | .jcc .. | .loopj .. => none

/-! ## The encoder: the bytes of an instruction, from the patterns of R76 to R84 -/

/-- The opcode byte of each class: the patterns of R76 to R84. -/
def Opcode.byte : Opcode → Byte
  | .a dir w => (0b100010 : BitVec 6) ++ bit dir.toBit ++ bit w.toBit
  | .b w => (0b1100011 : BitVec 7) ++ bit w.toBit
  | .c w reg => (0b1011 : BitVec 4) ++ bit w.toBit ++ reg.code
  | .d w => (0b1010000 : BitVec 7) ++ bit w.toBit
  | .e op dir w => (0b00 : BitVec 2) ++ op.code ++ (0b0 : BitVec 1) ++ bit dir.toBit ++ bit w.toBit
  | .f s w => (0b100000 : BitVec 6) ++ bit s ++ bit w.toBit
  | .g op w => (0b00 : BitVec 2) ++ op.code ++ (0b10 : BitVec 2) ++ bit w.toBit
  | .h cc => (0b0111 : BitVec 4) ++ cc.code
  | .i cc => (0b111000 : BitVec 6) ++ cc.code

/-- The addressing byte: mod, the middle field, rm (R72). -/
def addrByte (mid : BitVec 3) (rm : Rm) : Byte := rm.modCode ++ mid ++ rm.rmCode

/-- A word of the instruction stream, low byte first (20_memory.md R54). -/
def wordBytes (v : Word) : List Byte := [lowByte v, highByte v]

/-- The displacement bytes (R73). -/
def Rm.dispBytes : Rm → List Byte
  | .reg _ | .base _ => []
  | .disp8 _ d => [d]
  | .direct a => wordBytes a
  | .disp16 _ d => wordBytes d

/-- The immediate bytes of classes (b), (c) and (g) (R74). -/
def Imm.encoded : Imm → List Byte
  | .byte v => [v]
  | .word v => wordBytes v

/-- The immediate bytes of class (f) (R74). -/
def ImmS.encoded : ImmS → List Byte
  | .byte _ v | .sext v => [v]
  | .word v => wordBytes v

/-- The bytes of a record (R76 to R84). The three ignored bits of class (b)'s addressing byte (R77) are written 0. -/
def Record.encoded : Record → List Byte
  | .movRm d w reg rm => (Opcode.a d w).byte :: addrByte reg.code rm :: rm.dispBytes
  | .movRmImm rm imm => (Opcode.b imm.width).byte :: addrByte 0 rm :: (rm.dispBytes ++ imm.encoded)
  | .movRegImm reg imm => (Opcode.c imm.width reg).byte :: imm.encoded
  | .movAcc w addr => (Opcode.d w).byte :: wordBytes addr
  | .arithRm op d w reg rm => (Opcode.e op d w).byte :: addrByte reg.code rm :: rm.dispBytes
  | .arithRmImm op rm imm =>
    (Opcode.f imm.s imm.assembled.width).byte :: addrByte op.code rm :: (rm.dispBytes ++ imm.encoded)
  | .arithAcc op imm => (Opcode.g op imm.width).byte :: imm.encoded
  | .jcc cc d => [(Opcode.h cc).byte, d]
  | .loopj cc d => [(Opcode.i cc).byte, d]

/-- The bytes of an instruction, first byte first. -/
def encode (i : Instr) : List Byte := i.record.encoded

/-! ## Words numbered as the opcode table numbers them (the host's questions) -/

/-- Byte `k` of a number, counting from its least significant byte. -/
def byteOf (w k : Nat) : Byte := BitVec.ofNat 8 (w / 256 ^ k)

/-- The six bytes, in fetch order, of an instruction whose table row has `nbits` bits with value `w`; what the row
gives no bits to is 0. A row of one byte is that byte. The table's two-byte rows are those of class (f), numbered
"with b0 as the most significant byte" (30_encoding.md, head note), so their high byte, 0x80 to 0x83, comes first. Any
other number has its first byte in its low bits (log entry 4). -/
def tableBytes (nbits w : Nat) : List Byte :=
  if nbits = 16 ∧ byteOf w 1 &&& 0xFC = 0x80 then [byteOf w 1, byteOf w 0, 0, 0, 0, 0]
  else [byteOf w 0, byteOf w 1, byteOf w 2, byteOf w 3, byteOf w 4, byteOf w 5]

/-- The instruction the decoder reads from a table row's bits; none where it refuses. -/
def decodeTableWord (nbits w : Nat) : Option Instr :=
  match decode (tableBytes nbits w) with
  | .instr i => some i
  | .truncated | .unrecognised _ => none

end Sys2Proof
end

