-- ==== Sys2Proof/Machine/Cost.lean ====
section
/-! DEFINITION. The cycle-cost lookup (44_cycle_cost.md R190 to R198): the default table, the effective-address
component and the instruction component. Nothing here reads registers, memory or CYC (R190, R196). -/

namespace Sys2Proof

/-- The default CYCLES table (R198). -/
def CycleTable.default : CycleTable where
  eaDirect       := 6
  eaSingle       := 5
  eaSingleDisp   := 9
  eaPair03       := 7
  eaPair03Disp   := 11
  eaPair12       := 8
  eaPair12Disp   := 12
  movRR          := 2
  movRM          := 8
  movMR          := 9
  movRI          := 4
  movMI          := 10
  movAM          := 10
  aluRR          := 3
  aluRM          := 9
  aluMR          := 16
  aluRI          := 4
  aluMI          := 17
  aluAI          := 4
  cmpRR          := 3
  cmpRM          := 9
  cmpMR          := 9
  cmpRI          := 4
  cmpMI          := 10
  cmpAI          := 4
  jccTaken       := 16
  jccNotTaken    := 4
  loopNotTaken   := 5
  loopzNotTaken  := 6
  loopnzNotTaken := 5
  jcxzNotTaken   := 6

/-- The base's group of R191, without (`nz` false) and with a nonzero displacement. -/
def Base.cost (t : CycleTable) (nz : Bool) : Base → Nat
  | .si | .di | .bp | .bx => if nz then t.eaSingleDisp else t.eaSingle
  | .bxSi | .bpDi => if nz then t.eaPair03Disp else t.eaPair03
  | .bxDi | .bpSi => if nz then t.eaPair12Disp else t.eaPair12

/-- `EACost(mod, rm, disp)` of R191, on the displacement's value; none for a register operand (mode 3). -/
def Rm.eaCost? (t : CycleTable) : Rm → Option Nat
  | .reg _ => none
  | .base b => some (b.cost t false)
  | .direct _ => some t.eaDirect
  | .disp8 b d => some (b.cost t (sext16 d ≠ 0))
  | .disp16 b d => some (b.cost t (d ≠ 0))

/-- "alu" and CMP, the two groups of operations whose figures R192 lists apart. -/
inductive CostGroup where
  | alu | cmp
deriving DecidableEq, Repr

/-- The entries of the cost tables, one per row: those of R192 under their class letter and form, then those of R194.
Each row holds one field of CYCLES (`CostRow.figure`). The rows of class (b), register, and class (c) hold the same one,
`mov_ri`: 30_encoding.md R87 (4) says their fields differ, R192 and R198 say they do not, and the model follows R192:
DESIGN CHOICE, log entry 19. -/
inductive CostRow where
  | aRegReg | aRegMem | aMemReg
  | bRegImm | bMemImm
  | cRegImm
  | dAccMem
  | eRegReg (g : CostGroup) | eRegMem (g : CostGroup) | eMemReg (g : CostGroup)
  | fRegImm (g : CostGroup) | fMemImm (g : CostGroup)
  | gAccImm (g : CostGroup)
  | jccTaken | jccNotTaken
  | loopNotTaken (k : LoopKind)
deriving DecidableEq, Repr

/-- The field of CYCLES that a row of R192 or R194 holds, without the effective-address component. -/
def CostRow.figure (t : CycleTable) : CostRow → Nat
  | .aRegReg => t.movRR
  | .aRegMem => t.movRM
  | .aMemReg => t.movMR
  | .bRegImm => t.movRI
  | .bMemImm => t.movMI
  | .cRegImm => t.movRI
  | .dAccMem => t.movAM
  | .eRegReg .alu => t.aluRR
  | .eRegMem .alu => t.aluRM
  | .eMemReg .alu => t.aluMR
  | .fRegImm .alu => t.aluRI
  | .fMemImm .alu => t.aluMI
  | .gAccImm .alu => t.aluAI
  | .eRegReg .cmp => t.cmpRR
  | .eRegMem .cmp => t.cmpRM
  | .eMemReg .cmp => t.cmpMR
  | .fRegImm .cmp => t.cmpRI
  | .fMemImm .cmp => t.cmpMI
  | .gAccImm .cmp => t.cmpAI
  | .jccTaken => t.jccTaken
  | .jccNotTaken => t.jccNotTaken
  | .loopNotTaken .loopnz => t.loopnzNotTaken
  | .loopNotTaken .loopz => t.loopzNotTaken
  | .loopNotTaken .loop => t.loopNotTaken
  | .loopNotTaken .jcxz => t.jcxzNotTaken

/-- The group of an arithmetic operation: CMP apart, every other one "alu", those with no effect included (R192,
R193). -/
def ArithOp.costGroup : ArithOp → CostGroup
  | .cmp => .cmp
  | .add | .or | .adc | .sbb | .and | .sub | .xor => .alu

/-- The row of a form that R192 splits by `mod = 3`. -/
def rmRow (regRow memRow : CostRow) : Rm → CostRow
  | .reg _ => regRow
  | .base _ | .direct _ | .disp8 .. | .disp16 .. => memRow

/-- The memory row of a form that R192 splits by `d`: the r/m operand is read when reg is the destination. -/
def dirRow (d : Dir) (regMem memReg : CostRow) : CostRow :=
  match d with
  | .toReg => regMem
  | .toRm => memReg

/-- The row of the tables of R192 and R194 that a record falls in. -/
def Record.costRow (taken : Bool) : Record → CostRow
  | .movRm d _ _ rm => rmRow .aRegReg (dirRow d .aRegMem .aMemReg) rm
  | .movRmImm rm _ => rmRow .bRegImm .bMemImm rm
  | .movRegImm .. => .cRegImm
  | .movAcc .. => .dAccMem
  | .arithRm op d _ _ rm =>
    rmRow (.eRegReg op.costGroup) (dirRow d (.eRegMem op.costGroup) (.eMemReg op.costGroup)) rm
  | .arithRmImm op rm _ => rmRow (.fRegImm op.costGroup) (.fMemImm op.costGroup) rm
  | .arithAcc op _ => .gAccImm op.costGroup
  | .jcc _ _ => if taken then .jccTaken else .jccNotTaken
  | .loopj k _ => .loopNotTaken k

/-- The `EA` of R192: the effective-address component of a memory operand of classes (a), (b), (e), (f), else nothing. -/
def Record.eaCost (t : CycleTable) (r : Record) : Nat := ((r.rmOperand?.bind (Rm.eaCost? t)).getD 0)

/-- `Cost(rec, taken)` of R190: the row's figure and the effective-address component (R191 to R194). -/
def Record.cost (t : CycleTable) (taken : Bool) (r : Record) : Nat := (r.costRow taken).figure t + r.eaCost t

end Sys2Proof
end

