-- ==== Sys2Proof/Machine/State.lean ====
section
/-! DEFINITION. The machine's state as plain data (10_state.md R20 to R37): registers, PC, flags, CYC, data memory, run
status and cause, the instruction buffer, the cycle table, and the trace port's output so far (60_exceptions.md R264). -/

namespace Sys2Proof.Machine

/-- The eight storage slots, in storage-index order 0 to 7 (R21). -/
inductive Slot where
  | ax | cx | dx | bx | sp | bp | si | di
deriving DecidableEq, Repr

/-- The register file `x[0..7]` (R21): eight 16-bit slots; the byte registers are views of the first four (R22, R23). -/
structure Regs where
  ax : Word
  cx : Word
  dx : Word
  bx : Word
  sp : Word
  bp : Word
  si : Word
  di : Word
deriving DecidableEq, Repr

/-- `ST`, the run status (R31): three values (90_conflicts.md C8). -/
inductive RunStatus where
  | running
  | halted   -- PC = LEN at a step boundary: the normal end
  | faulted  -- a fatal event
deriving DecidableEq, Repr

/-- The fatal events (60_exceptions.md R251); their codes are `FatalEvent.code`. -/
inductive FatalEvent where
  | decodeTruncated  -- code 1, raised by the decoder (R253)
  | pcOutOfRange     -- code 2, raised by the end test (R254)
deriving DecidableEq, Repr

/-- The mark a trace record carries (60_exceptions.md R264). -/
inductive Effect where
  | executed
  | noEffect
deriving DecidableEq, Repr

/-- The final dump (60_exceptions.md R265), in its order. -/
structure Dump where
  regs  : Regs
  pc    : Word
  sf    : Bool
  zf    : Bool
  cyc   : Nat
  st    : RunStatus
  cause : Option FatalEvent
deriving DecidableEq, Repr

/-- A record of the trace port (60_exceptions.md R264). The `text` field of R264 is a function of the other fields
(45_disassembly.md R210) and is computed, not stored: `TraceRecord.text` in Machine/Disasm.lean (log entry 7). -/
inductive TraceRecord where
  | instr (pc : Word) (rec : Record) (effect : Effect)
  | diag (pc : Word) (byte : Byte)
  | fault (event : FatalEvent) (pc : Word)
  | dump (d : Dump)
deriving DecidableEq, Repr

/-- `MEM` (R33) as address and byte pairs: addresses strictly rising, no entry equal to what an unlisted address reads
as (`Memory.wf`, Machine/Ops.lean). -/
abbrev Memory := List Host.Cell

/-- The complete state (R20), with the parameters fixed for a run (IBUF with LEN, CYCLES) and the trace output. -/
structure State where
  /-- The register file `x[0..7]` (R21). -/
  regs   : Regs
  /-- `PC`, an offset into the instruction buffer (R26). -/
  pc     : Word
  /-- `SF` (R28). -/
  sf     : Bool
  /-- `ZF` (R28). -/
  zf     : Bool
  /-- `CYC`, an unbounded natural number (R29). -/
  cyc    : Nat
  /-- `MEM`, the data memory (R33). -/
  mem    : Memory
  /-- `ST` (R31). -/
  st     : RunStatus
  /-- `CAUSE` (R31): none is 0. -/
  cause  : Option FatalEvent
  /-- `IBUF[0..LEN-1]`, the loaded bytes (R32); its length is `LEN` (R30), see `State.len`. -/
  ibuf   : List Byte
  /-- `CYCLES`, the run's cycle-cost table (00_scope.md R6; 44_cycle_cost.md R198). -/
  cycles : CycleTable
  /-- What the trace port has emitted since reset, oldest first (60_exceptions.md R264). -/
  trace  : List TraceRecord
deriving DecidableEq, Repr

/-- `LEN`, the number of loaded bytes (R30). -/
def State.len (s : State) : Nat := s.ibuf.length

/-- Why a step could stop the model itself. The spec gives every stop of the block an effect on its state (a fatal
event sets ST and CAUSE, R250), so a stop is a next state and there is no fault of the model: the type is empty. -/
inductive Fault where
deriving DecidableEq, Repr

/-- Why a step has no next state. -/
inductive Refusal where
  /-- exec has no meaning for this instruction yet; raised by exec's arms only (none is left); safe. -/
  | notModelled (mnemonic : String)
  /-- `StartRefused` (60_exceptions.md R255): LEN is 0 or above IBUF_MAX, so the block does not run. Raised by `step`
  (through `fetch`) and by `start`; safe: the spec says no step is taken. -/
  | startRefused
deriving DecidableEq, Repr

/-- The registers after reset: zero each (R36). -/
def Regs.zero : Regs := ⟨0, 0, 0, 0, 0, 0, 0, 0⟩

/-- The machine right after reset (R36, R280, R281): every item of R36's table at its value. IBUF and LEN are the
host's (R36): nothing is loaded yet. ST stands at Running (log entry 1) and CYCLES at its default table (R198). -/
def State.reset : State where
  regs   := Regs.zero
  pc     := 0
  sf     := false
  zf     := false
  cyc    := 0
  mem    := []
  st     := .running
  cause  := none
  ibuf   := []
  cycles := CycleTable.default
  trace  := []

end Sys2Proof.Machine
end

