-- ==== Sys2Proof/Machine/Ops.lean ====
section
/-! DEFINITION. The named operations over the state: registers through the lookup table (10_state.md R22 to R24), data
memory (20_memory.md R53 to R57), the trace port, fatal events (60_exceptions.md R250, R258), the end test (46_step.md
R231), the end of a recognised instruction (R230), and the host's load and start (70_reset_and_hazards.md R283). -/

namespace Sys2Proof.Machine

/-! ## Registers -/

/-- `x[i]` (00_scope.md R9). -/
def Regs.get (r : Regs) : Slot → Word
  | .ax => r.ax
  | .cx => r.cx
  | .dx => r.dx
  | .bx => r.bx
  | .sp => r.sp
  | .bp => r.bp
  | .si => r.si
  | .di => r.di

/-- `x[i] <- v` (00_scope.md R9). -/
def Regs.set (r : Regs) (i : Slot) (v : Word) : Regs :=
  match i with
  | .ax => { r with ax := v }
  | .cx => { r with cx := v }
  | .dx => { r with dx := v }
  | .bx => { r with bx := v }
  | .sp => { r with sp := v }
  | .bp => { r with bp := v }
  | .si => { r with si := v }
  | .di => { r with di := v }

/-- The half of a slot that a byte register names (R22). -/
inductive Half where
  | low   -- bits 7:0
  | high  -- bits 15:8
deriving DecidableEq, Repr

/-- An entry of the lookup table of R22: storage index, canonical name, width, and at byte width the half. -/
structure RegEntry where
  index : Slot
  name  : String
  width : Width
  half  : Option Half
deriving DecidableEq, Repr

/-- The register lookup table of R22: (width, field code) to entry. -/
def regLookup : Width → RegCode → RegEntry
  | .word, .r0 => ⟨.ax, "ax", .word, none⟩
  | .word, .r1 => ⟨.cx, "cx", .word, none⟩
  | .word, .r2 => ⟨.dx, "dx", .word, none⟩
  | .word, .r3 => ⟨.bx, "bx", .word, none⟩
  | .word, .r4 => ⟨.sp, "sp", .word, none⟩
  | .word, .r5 => ⟨.bp, "bp", .word, none⟩
  | .word, .r6 => ⟨.si, "si", .word, none⟩
  | .word, .r7 => ⟨.di, "di", .word, none⟩
  | .byte, .r0 => ⟨.ax, "al", .byte, some .low⟩
  | .byte, .r1 => ⟨.cx, "cl", .byte, some .low⟩
  | .byte, .r2 => ⟨.dx, "dl", .byte, some .low⟩
  | .byte, .r3 => ⟨.bx, "bl", .byte, some .low⟩
  | .byte, .r4 => ⟨.ax, "ah", .byte, some .high⟩
  | .byte, .r5 => ⟨.cx, "ch", .byte, some .high⟩
  | .byte, .r6 => ⟨.dx, "dh", .byte, some .high⟩
  | .byte, .r7 => ⟨.bx, "bh", .byte, some .high⟩

/-- One half of a word. -/
def Half.read : Half → Word → Byte
  | .low, v => lowByte v
  | .high, v => highByte v

/-- A word with one half replaced, the other as it was (R24). -/
def Half.write : Half → Word → Byte → Word
  | .low, v, b => joinBytes (highByte v) b
  | .high, v, b => joinBytes b (lowByte v)

/-- Which half a byte-width code names (R22). -/
def byteHalf (code : RegCode) : Half := (regLookup .byte code).half.getD .low

/-- `RegRead(w, code)` of R23. -/
def regRead (w : Width) (code : RegCode) (r : Regs) : BitVec w.bits :=
  match w with
  | .word => r.get (regLookup .word code).index
  | .byte => (byteHalf code).read (r.get (regLookup .byte code).index)

/-- `RegWrite(w, code, v)` of R24: a byte write changes exactly the eight bits of its half. -/
def regWrite (w : Width) (code : RegCode) (v : BitVec w.bits) (r : Regs) : Regs :=
  match w, v with
  | .word, v => r.set (regLookup .word code).index v
  | .byte, v =>
    let i := (regLookup .byte code).index
    r.set i ((byteHalf code).write (r.get i) v)

/-! ## Data memory -/

/-- What a byte that nothing has written reads as: its reset value 0x00 (R36). -/
def Memory.unwritten : Byte := 0

/-- `MEM[a]`. -/
def Memory.read : Memory → Nat → Byte
  | [], _ => Memory.unwritten
  | (k, v) :: m, a => if k = a then v else Memory.read m a

/-- Put a cell before the first cell of a higher address. -/
def Memory.place (a : Nat) (b : Byte) : Memory → Memory
  | [] => [(a, b)]
  | (k, v) :: m => if a < k then (a, b) :: (k, v) :: m else (k, v) :: Memory.place a b m

/-- `MEM[a] <- b`, keeping the canonical form: an old entry of `a` goes, and a new one stands only for a byte that an
unlisted address would not read as. -/
def Memory.write (m : Memory) (a : Nat) (b : Byte) : Memory :=
  let rest := m.filter fun c => c.1 ≠ a
  if b = Memory.unwritten then rest else Memory.place a b rest

/-- The canonical form: addresses strictly rising and inside MEM, no entry equal to the unwritten byte. -/
abbrev Memory.wf (m : Memory) : Prop :=
  m.Pairwise (fun x y => x.1 < y.1) ∧ ∀ c ∈ m, c.1 < Config.memSize ∧ c.2 ≠ Memory.unwritten

/-- `MemRead(addr, n)` of R57, `n` the width's bytes: little-endian, the address wrapping modulo 65536 (R53, R56). -/
def memRead (w : Width) (addr : Word) (m : Memory) : BitVec w.bits :=
  match w with
  | .byte => m.read addr.toNat
  | .word => joinBytes (m.read (addr + 1).toNat) (m.read addr.toNat)

/-- `MemWrite(addr, n, v)` of R57. -/
def memWrite (w : Width) (addr : Word) (v : BitVec w.bits) (m : Memory) : Memory :=
  match w, v with
  | .byte, v => m.write addr.toNat v
  | .word, v => (m.write addr.toNat (lowByte v)).write (addr + 1).toNat (highByte v)

/-! ## Named updates of the state -/

/-- Replace the register file. -/
def State.withRegs (s : State) (r : Regs) : State := { s with regs := r }

/-- Replace the data memory. -/
def State.withMem (s : State) (m : Memory) : State := { s with mem := m }

/-- Write both flags together (R28: no instruction writes one without the other). -/
def State.withFlags (s : State) (sf zf : Bool) : State := { s with sf := sf, zf := zf }

/-- `pc <- target` (00_scope.md R9). -/
def State.withPc (s : State) (target : Word) : State := { s with pc := target }

/-- `CYC <- CYC + n` (44_cycle_cost.md R190). -/
def State.addCycles (s : State) (n : Nat) : State := { s with cyc := s.cyc + n }

/-- `emit` of 46_step.md R230: one more record on the trace port (60_exceptions.md R264). -/
def State.emit (s : State) (r : TraceRecord) : State := { s with trace := s.trace ++ [r] }

/-- Set ST and CAUSE (R31). -/
def State.withStatus (s : State) (st : RunStatus) (cause : Option FatalEvent) : State :=
  { s with st := st, cause := cause }

/-! ## Events and the end of a run -/

/-- The event's code (60_exceptions.md R251). -/
def FatalEvent.code : FatalEvent → Nat
  | .decodeTruncated => 1
  | .pcOutOfRange => 2

/-- `CAUSE` as the number R31 gives it: the code of the fatal event, 0 otherwise. -/
def State.causeCode (s : State) : Nat :=
  match s.cause with
  | none => 0
  | some e => e.code

/-- The dump's content (60_exceptions.md R265). -/
def State.dumpNow (s : State) : Dump := ⟨s.regs, s.pc, s.sf, s.zf, s.cyc, s.st, s.cause⟩

/-- Emit the final dump (46_step.md R234). -/
def State.emitDump (s : State) : State := s.emit (.dump s.dumpNow)

/-- Taking a fatal event (60_exceptions.md R250, R258): the fault record with PC, `ST <- Faulted`, `CAUSE <-` the
event, then the final dump (46_step.md R234). Nothing is saved and nothing else changes; there is no return (R259). -/
def raiseFatal (e : FatalEvent) (s : State) : State :=
  ((s.withStatus .faulted (some e)).emit (.fault e s.pc)).emitDump

/-- `EndTest` of 46_step.md R231, with the dump of R234: `PC = LEN` halts, `PC > LEN` is `PcOutOfRange`. -/
def endTest (s : State) : State :=
  if s.pc.toNat = s.len then (s.withStatus .halted none).emitDump
  else if s.len < s.pc.toNat then raiseFatal .pcOutOfRange s
  else s

/-- An unrecognised byte (60_exceptions.md R252): a diagnostic, and PC moves by one; nothing else. -/
def skipUnrecognised (b0 : Byte) (s : State) : State :=
  (s.emit (.diag s.pc b0)).withPc (s.pc + 1)

/-! ## The end of a recognised instruction -/

/-- The trace mark of an operation of the arithmetic group (42_arith.md R146). -/
def ArithOp.effect : ArithOp → Effect
  | .add | .sub | .cmp => .executed
  | .or | .adc | .sbb | .and | .xor => .noEffect

/-- The trace mark of a condition of class (h) (43_jumps.md R162, R182). -/
def Cond.effect : Cond → Effect
  | .nz => .executed
  | .o | .no | .b | .nb | .z | .be | .a | .s | .ns | .p | .np | .l | .nl | .le | .g => .noEffect

/-- The `effect` field of a trace record (60_exceptions.md R264). -/
def recordEffect : Record → Effect
  | .movRm .. | .movRmImm .. | .movRegImm .. | .movAcc .. => .executed
  | .arithRm op .. | .arithRmImm op .. | .arithAcc op _ => ArithOp.effect op
  | .jcc cc _ => Cond.effect cc
  | .loopj .. => .noEffect

/-- Offset of the byte after the instruction: `(PC + len) mod 2^16` (R27). -/
def fallthrough (r : Record) (pc : Word) : Word := pc + BitVec.ofNat 16 r.len

/-- A jump's target: `(PC + 2 + sext_16(disp8)) mod 2^16` (43_jumps.md R161). -/
def jumpTarget (disp : Byte) (pc : Word) : Word := pc + 2 + sext16 disp

/-- The last lines of a recognised instruction's step (46_step.md R230): the cost, the trace record with the PC of the
instruction's first byte, and the new PC. -/
def retire (r : Record) (taken : Bool) (target : Word) (s : State) : State :=
  ((s.addCycles (r.cost s.cycles taken)).emit (.instr s.pc r (recordEffect r))).withPc target

/-- The end of an instruction that does not jump. -/
def advance (r : Record) (s : State) : State := retire r false (fallthrough r s.pc) s

/-! ## The host's part -/

/-- The start conditions on LEN: `1 <= LEN <= IBUF_MAX` (70_reset_and_hazards.md R283). -/
def State.startOk (s : State) : Bool := decide (1 ≤ s.len ∧ s.len ≤ Config.ibufMax)

/-- The host's load before start: IBUF and, with it, LEN (R283, R284). -/
def State.load (s : State) (program : List Byte) : State := { s with ibuf := program }

/-- Reset, load, start (R283): `StartRefused` when LEN is out of range, tested first (60_exceptions.md R255, R257),
else the end test and the block runs. -/
def start (program : List Byte) : Host.Outcome State Fault Refusal :=
  let s := State.reset.load program
  if s.startOk then .next (endTest s) else .refused .startRefused

end Sys2Proof.Machine
end

