-- ==== Sys2Proof/Machine/Operands.lean ====
section
/-! DEFINITION. The operand resolver (40_operands.md R110 to R121): operands, effective addresses, and reading and
writing an operand at the instruction's width. -/

namespace Sys2Proof.Machine

/-- The two operand kinds that can be written (R110): a register code, looked up at the instruction's width, or a
location of data memory. -/
inductive Place where
  | reg (code : RegCode)
  | mem (addr : Word)
deriving DecidableEq, Repr

/-- The three operand kinds (R110): a place, or an immediate of the instruction's width. -/
inductive Operand (w : Width) where
  | place (p : Place)
  | imm (v : BitVec w.bits)

/-- `Base(rm)` of R112: the sum of the base registers, each at its full width, modulo 65536 (R115). -/
def Base.addr (b : Base) (r : Regs) : Word :=
  match b with
  | .bxSi => r.bx + r.si
  | .bxDi => r.bx + r.di
  | .bpSi => r.bp + r.si
  | .bpDi => r.bp + r.di
  | .si => r.si
  | .di => r.di
  | .bp => r.bp
  | .bx => r.bx

/-- `Resolve(mod, rm, w)` of R111 and R115: the register of mode 3, or memory at the effective address, from the
register values as they are now (R120). -/
def resolve (rm : Rm) (r : Regs) : Place :=
  match rm with
  | .reg code => .reg code
  | .base b => .mem (Base.addr b r)
  | .direct a => .mem a
  | .disp8 b d => .mem (Base.addr b r + sext16 d)
  | .disp16 b d => .mem (Base.addr b r + d)

/-- `ReadOpnd` of R117 for a place. -/
def readPlace (w : Width) (p : Place) (s : State) : BitVec w.bits :=
  match p with
  | .reg code => regRead w code s.regs
  | .mem addr => memRead w addr s.mem

/-- `WriteOpnd` of R117. -/
def writePlace (w : Width) (p : Place) (v : BitVec w.bits) (s : State) : State :=
  match p with
  | .reg code => s.withRegs (regWrite w code v s.regs)
  | .mem addr => s.withMem (memWrite w addr v s.mem)

/-- `ReadOpnd` of R117. -/
def readOperand {w : Width} (o : Operand w) (s : State) : BitVec w.bits :=
  match o with
  | .place p => readPlace w p s
  | .imm v => v

/-- The destination of a register, register/memory pair: r/m when d = 0, reg when d = 1 (42_arith.md R142). -/
def destPlace (d : Dir) (reg : RegCode) (rm : Rm) (r : Regs) : Place :=
  match d with
  | .toRm => resolve rm r
  | .toReg => .reg reg

/-- The source of such a pair: reg when d = 0, r/m when d = 1 (42_arith.md R142). -/
def srcPlace (d : Dir) (reg : RegCode) (rm : Rm) (r : Regs) : Place :=
  match d with
  | .toRm => .reg reg
  | .toReg => resolve rm r

/-- The accumulator `Reg(w, 0)`: AL or AX (42_arith.md R144; 41_mov.md R134). -/
def accumulator : Place := .reg .r0

end Sys2Proof.Machine
end

