-- ==== Sys2Proof/Machine/Flags.lean ====
section
/-! DEFINITION. The arithmetic unit and the two flags (42_arith.md R140, R141, R155): `W`-bit results modulo 2^W, no
carry in, no other flag out. -/

namespace Sys2Proof.Machine

/-- The operations that the unit performs (R140). -/
inductive AluOp where
  | add | sub | cmp
deriving DecidableEq, Repr

/-- `ALU(op, a, b, W)` of R140: destination plus source, or destination minus source. -/
def alu {w : Width} (op : AluOp) (a b : BitVec w.bits) : BitVec w.bits :=
  match op with
  | .add => a + b
  | .sub | .cmp => a - b

/-- `SF` from a result: its top bit, bit 15 or bit 7 (R141). -/
def signOf {w : Width} (r : BitVec w.bits) : Bool := r.msb

/-- `ZF` from a result: set when the `W`-bit result is 0 (R141). -/
def zeroOf {w : Width} (r : BitVec w.bits) : Bool := r == 0

/-- Whether the operation writes its result back: ADD and SUB do, CMP does not (R145). -/
def AluOp.writesBack : AluOp → Bool
  | .add | .sub => true
  | .cmp => false

/-- `ExecArith` of R145 for the three operations with an effect: both reads, the result, the write-back, both flags. -/
def executeArith (op : AluOp) {w : Width} (dst : Place) (src : Operand w) (s : State) : State :=
  let r := alu op (readPlace w dst s) (readOperand src s)
  let written := if op.writesBack then writePlace w dst r s else s
  written.withFlags (signOf r) (zeroOf r)

end Sys2Proof.Machine
end

