-- ==== Sys2Proof/Machine/Arith.lean ====
section
/-! DEFINITION. The arithmetic group (42_arith.md R140 to R155): ADD, SUB and CMP execute in three forms each; OR, ADC,
SBB, AND and XOR are recognised, costed and traced, and have no effect (R146). -/

namespace Sys2Proof.Machine

/-- Form (e) of an operation with an effect (R142, R145). -/
def arithRm (alu : AluOp) (op : ArithOp) (d : Dir) (w : Width) (reg : RegCode) (rm : Rm) (s : State) :
    Host.Outcome State Fault Refusal :=
  .next (advance (.arithRm op d w reg rm)
    (executeArith alu (w := w) (destPlace d reg rm s.regs) (.place (srcPlace d reg rm s.regs)) s))

/-- Form (f) of an operation with an effect (R143, R145); the immediate as assembled by 30_encoding.md R74. -/
def arithRmImm (alu : AluOp) (op : ArithOp) (rm : Rm) (imm : ImmS) (s : State) : Host.Outcome State Fault Refusal :=
  .next (advance (.arithRmImm op rm imm)
    (executeArith alu (w := imm.assembled.width) (resolve rm s.regs) (.imm imm.assembled.val) s))

/-- Form (g) of an operation with an effect (R144, R145). -/
def arithAcc (alu : AluOp) (op : ArithOp) (imm : Imm) (s : State) : Host.Outcome State Fault Refusal :=
  .next (advance (.arithAcc op imm) (executeArith alu (w := imm.width) accumulator (.imm imm.val) s))

/-- An operation with no effect (R146): nothing is read or written but PC, CYC and the trace port. -/
def noEffect (r : Record) (s : State) : Host.Outcome State Fault Refusal := .next (advance r s)

/-- ADD, form (e), R147. -/
def execAddRm (d : Dir) (w : Width) (reg : RegCode) (rm : Rm) (s : State) : Host.Outcome State Fault Refusal :=
  arithRm .add .add d w reg rm s

/-- ADD, form (f), R147. -/
def execAddRmImm (rm : Rm) (imm : ImmS) (s : State) : Host.Outcome State Fault Refusal :=
  arithRmImm .add .add rm imm s

/-- ADD, form (g), R147. -/
def execAddAcc (imm : Imm) (s : State) : Host.Outcome State Fault Refusal :=
  arithAcc .add .add imm s

/-- OR, form (e), R148, no effect. -/
def execOrRm (d : Dir) (w : Width) (reg : RegCode) (rm : Rm) (s : State) : Host.Outcome State Fault Refusal :=
  noEffect (.arithRm .or d w reg rm) s

/-- OR, form (f), R148, no effect. -/
def execOrRmImm (rm : Rm) (imm : ImmS) (s : State) : Host.Outcome State Fault Refusal :=
  noEffect (.arithRmImm .or rm imm) s

/-- OR, form (g), R148, no effect. -/
def execOrAcc (imm : Imm) (s : State) : Host.Outcome State Fault Refusal :=
  noEffect (.arithAcc .or imm) s

/-- ADC, form (e), R149, no effect. -/
def execAdcRm (d : Dir) (w : Width) (reg : RegCode) (rm : Rm) (s : State) : Host.Outcome State Fault Refusal :=
  noEffect (.arithRm .adc d w reg rm) s

/-- ADC, form (f), R149, no effect. -/
def execAdcRmImm (rm : Rm) (imm : ImmS) (s : State) : Host.Outcome State Fault Refusal :=
  noEffect (.arithRmImm .adc rm imm) s

/-- ADC, form (g), R149, no effect. -/
def execAdcAcc (imm : Imm) (s : State) : Host.Outcome State Fault Refusal :=
  noEffect (.arithAcc .adc imm) s

/-- SBB, form (e), R150, no effect. -/
def execSbbRm (d : Dir) (w : Width) (reg : RegCode) (rm : Rm) (s : State) : Host.Outcome State Fault Refusal :=
  noEffect (.arithRm .sbb d w reg rm) s

/-- SBB, form (f), R150, no effect. -/
def execSbbRmImm (rm : Rm) (imm : ImmS) (s : State) : Host.Outcome State Fault Refusal :=
  noEffect (.arithRmImm .sbb rm imm) s

/-- SBB, form (g), R150, no effect. -/
def execSbbAcc (imm : Imm) (s : State) : Host.Outcome State Fault Refusal :=
  noEffect (.arithAcc .sbb imm) s

/-- AND, form (e), R151, no effect. -/
def execAndRm (d : Dir) (w : Width) (reg : RegCode) (rm : Rm) (s : State) : Host.Outcome State Fault Refusal :=
  noEffect (.arithRm .and d w reg rm) s

/-- AND, form (f), R151, no effect. -/
def execAndRmImm (rm : Rm) (imm : ImmS) (s : State) : Host.Outcome State Fault Refusal :=
  noEffect (.arithRmImm .and rm imm) s

/-- AND, form (g), R151, no effect. -/
def execAndAcc (imm : Imm) (s : State) : Host.Outcome State Fault Refusal :=
  noEffect (.arithAcc .and imm) s

/-- SUB, form (e), R152. -/
def execSubRm (d : Dir) (w : Width) (reg : RegCode) (rm : Rm) (s : State) : Host.Outcome State Fault Refusal :=
  arithRm .sub .sub d w reg rm s

/-- SUB, form (f), R152. -/
def execSubRmImm (rm : Rm) (imm : ImmS) (s : State) : Host.Outcome State Fault Refusal :=
  arithRmImm .sub .sub rm imm s

/-- SUB, form (g), R152. -/
def execSubAcc (imm : Imm) (s : State) : Host.Outcome State Fault Refusal :=
  arithAcc .sub .sub imm s

/-- XOR, form (e), R153, no effect. -/
def execXorRm (d : Dir) (w : Width) (reg : RegCode) (rm : Rm) (s : State) : Host.Outcome State Fault Refusal :=
  noEffect (.arithRm .xor d w reg rm) s

/-- XOR, form (f), R153, no effect. -/
def execXorRmImm (rm : Rm) (imm : ImmS) (s : State) : Host.Outcome State Fault Refusal :=
  noEffect (.arithRmImm .xor rm imm) s

/-- XOR, form (g), R153, no effect. -/
def execXorAcc (imm : Imm) (s : State) : Host.Outcome State Fault Refusal :=
  noEffect (.arithAcc .xor imm) s

/-- CMP, form (e), R154. -/
def execCmpRm (d : Dir) (w : Width) (reg : RegCode) (rm : Rm) (s : State) : Host.Outcome State Fault Refusal :=
  arithRm .cmp .cmp d w reg rm s

/-- CMP, form (f), R154. -/
def execCmpRmImm (rm : Rm) (imm : ImmS) (s : State) : Host.Outcome State Fault Refusal :=
  arithRmImm .cmp .cmp rm imm s

/-- CMP, form (g), R154. -/
def execCmpAcc (imm : Imm) (s : State) : Host.Outcome State Fault Refusal :=
  arithAcc .cmp .cmp imm s

end Sys2Proof.Machine
end

