-- ==== Sys2Proof/Machine/Jumps.lean ====
section
/-! DEFINITION. The sixteen conditional jumps and the four loop instructions (43_jumps.md R160 to R183): JNZ alone can
change control flow; the other nineteen only fall through (R182). -/

namespace Sys2Proof.Machine

/-- A control instruction with no effect (R182): PC moves past it, CYC grows by its not-taken cost, and the trace
record says NoEffect; no flag and no register is read or written. -/
def notTaken (r : Record) (s : State) : Host.Outcome State Fault Refusal := .next (advance r s)

/-- JO, R163. -/
def execJo (disp : Byte) (s : State) : Host.Outcome State Fault Refusal := notTaken (.jcc .o disp) s

/-- JNO, R164. -/
def execJno (disp : Byte) (s : State) : Host.Outcome State Fault Refusal := notTaken (.jcc .no disp) s

/-- JB, R165. -/
def execJb (disp : Byte) (s : State) : Host.Outcome State Fault Refusal := notTaken (.jcc .b disp) s

/-- JNB, R166. -/
def execJnb (disp : Byte) (s : State) : Host.Outcome State Fault Refusal := notTaken (.jcc .nb disp) s

/-- JZ, R167. -/
def execJz (disp : Byte) (s : State) : Host.Outcome State Fault Refusal := notTaken (.jcc .z disp) s

/-- JNZ, R162: taken when ZF = 0, to PC + 2 + disp8; no flag is written. -/
def execJnz (disp : Byte) (s : State) : Host.Outcome State Fault Refusal :=
  if s.zf then .next (advance (.jcc .nz disp) s)
  else .next (retire (.jcc .nz disp) true (jumpTarget disp s.pc) s)

/-- JBE, R168. -/
def execJbe (disp : Byte) (s : State) : Host.Outcome State Fault Refusal := notTaken (.jcc .be disp) s

/-- JA, R169. -/
def execJa (disp : Byte) (s : State) : Host.Outcome State Fault Refusal := notTaken (.jcc .a disp) s

/-- JS, R170. -/
def execJs (disp : Byte) (s : State) : Host.Outcome State Fault Refusal := notTaken (.jcc .s disp) s

/-- JNS, R171. -/
def execJns (disp : Byte) (s : State) : Host.Outcome State Fault Refusal := notTaken (.jcc .ns disp) s

/-- JP, R172. -/
def execJp (disp : Byte) (s : State) : Host.Outcome State Fault Refusal := notTaken (.jcc .p disp) s

/-- JNP, R173. -/
def execJnp (disp : Byte) (s : State) : Host.Outcome State Fault Refusal := notTaken (.jcc .np disp) s

/-- JL, R174. -/
def execJl (disp : Byte) (s : State) : Host.Outcome State Fault Refusal := notTaken (.jcc .l disp) s

/-- JNL, R175. -/
def execJnl (disp : Byte) (s : State) : Host.Outcome State Fault Refusal := notTaken (.jcc .nl disp) s

/-- JLE, R176. -/
def execJle (disp : Byte) (s : State) : Host.Outcome State Fault Refusal := notTaken (.jcc .le disp) s

/-- JG, R177. -/
def execJg (disp : Byte) (s : State) : Host.Outcome State Fault Refusal := notTaken (.jcc .g disp) s

/-- LOOPNZ, R178: CX is not decremented. -/
def execLoopnz (disp : Byte) (s : State) : Host.Outcome State Fault Refusal := notTaken (.loopj .loopnz disp) s

/-- LOOPZ, R179: CX is not decremented. -/
def execLoopz (disp : Byte) (s : State) : Host.Outcome State Fault Refusal := notTaken (.loopj .loopz disp) s

/-- LOOP, R180: CX is not decremented. -/
def execLoop (disp : Byte) (s : State) : Host.Outcome State Fault Refusal := notTaken (.loopj .loop disp) s

/-- JCXZ, R181: CX is not tested. -/
def execJcxz (disp : Byte) (s : State) : Host.Outcome State Fault Refusal := notTaken (.loopj .jcxz disp) s

end Sys2Proof.Machine
end

