-- ==== Sys2Proof/Machine/Mov.lean ====
section
/-! DEFINITION. The four MOV forms (41_mov.md R130 to R134): a copy at the instruction's width; no flag is written. -/

namespace Sys2Proof.Machine

/-- MOV class (a), R131. -/
def execMovRm (d : Dir) (w : Width) (reg : RegCode) (rm : Rm) (s : State) : Host.Outcome State Fault Refusal :=
  let v := readPlace w (srcPlace d reg rm s.regs) s
  .next (advance (.movRm d w reg rm) (writePlace w (destPlace d reg rm s.regs) v s))

/-- MOV class (b), R132. -/
def execMovRmImm (rm : Rm) (imm : Imm) (s : State) : Host.Outcome State Fault Refusal :=
  .next (advance (.movRmImm rm imm) (writePlace imm.width (resolve rm s.regs) imm.val s))

/-- MOV class (c), R133. -/
def execMovRegImm (reg : RegCode) (imm : Imm) (s : State) : Host.Outcome State Fault Refusal :=
  .next (advance (.movRegImm reg imm) (writePlace imm.width (.reg reg) imm.val s))

/-- MOV class (d), R134. -/
def execMovAcc (w : Width) (addr : Word) (s : State) : Host.Outcome State Fault Refusal :=
  .next (advance (.movAcc w addr) (writePlace w accumulator (memRead w addr s.mem) s))

end Sys2Proof.Machine
end

