-- ==== Sys2Proof/Machine/Dispatch.lean ====
section
/-! DEFINITION. One arm per instruction, each a direct call of its meaning. -/

namespace Sys2Proof.Machine

def exec (i : Instr) (s : State) : Host.Outcome State Fault Refusal :=
  match i with
  | .movRm d w reg rm => Sys2Proof.Machine.execMovRm d w reg rm s
  | .movRmImm rm imm => Sys2Proof.Machine.execMovRmImm rm imm s
  | .movRegImm reg imm => Sys2Proof.Machine.execMovRegImm reg imm s
  | .movAcc w addr => Sys2Proof.Machine.execMovAcc w addr s
  | .addRm d w reg rm => Sys2Proof.Machine.execAddRm d w reg rm s
  | .addRmImm rm imm => Sys2Proof.Machine.execAddRmImm rm imm s
  | .addAcc imm => Sys2Proof.Machine.execAddAcc imm s
  | .orRm d w reg rm => Sys2Proof.Machine.execOrRm d w reg rm s
  | .orRmImm rm imm => Sys2Proof.Machine.execOrRmImm rm imm s
  | .orAcc imm => Sys2Proof.Machine.execOrAcc imm s
  | .adcRm d w reg rm => Sys2Proof.Machine.execAdcRm d w reg rm s
  | .adcRmImm rm imm => Sys2Proof.Machine.execAdcRmImm rm imm s
  | .adcAcc imm => Sys2Proof.Machine.execAdcAcc imm s
  | .sbbRm d w reg rm => Sys2Proof.Machine.execSbbRm d w reg rm s
  | .sbbRmImm rm imm => Sys2Proof.Machine.execSbbRmImm rm imm s
  | .sbbAcc imm => Sys2Proof.Machine.execSbbAcc imm s
  | .andRm d w reg rm => Sys2Proof.Machine.execAndRm d w reg rm s
  | .andRmImm rm imm => Sys2Proof.Machine.execAndRmImm rm imm s
  | .andAcc imm => Sys2Proof.Machine.execAndAcc imm s
  | .subRm d w reg rm => Sys2Proof.Machine.execSubRm d w reg rm s
  | .subRmImm rm imm => Sys2Proof.Machine.execSubRmImm rm imm s
  | .subAcc imm => Sys2Proof.Machine.execSubAcc imm s
  | .xorRm d w reg rm => Sys2Proof.Machine.execXorRm d w reg rm s
  | .xorRmImm rm imm => Sys2Proof.Machine.execXorRmImm rm imm s
  | .xorAcc imm => Sys2Proof.Machine.execXorAcc imm s
  | .cmpRm d w reg rm => Sys2Proof.Machine.execCmpRm d w reg rm s
  | .cmpRmImm rm imm => Sys2Proof.Machine.execCmpRmImm rm imm s
  | .cmpAcc imm => Sys2Proof.Machine.execCmpAcc imm s
  | .jo disp => Sys2Proof.Machine.execJo disp s
  | .jno disp => Sys2Proof.Machine.execJno disp s
  | .jb disp => Sys2Proof.Machine.execJb disp s
  | .jnb disp => Sys2Proof.Machine.execJnb disp s
  | .jz disp => Sys2Proof.Machine.execJz disp s
  | .jnz disp => Sys2Proof.Machine.execJnz disp s
  | .jbe disp => Sys2Proof.Machine.execJbe disp s
  | .ja disp => Sys2Proof.Machine.execJa disp s
  | .js disp => Sys2Proof.Machine.execJs disp s
  | .jns disp => Sys2Proof.Machine.execJns disp s
  | .jp disp => Sys2Proof.Machine.execJp disp s
  | .jnp disp => Sys2Proof.Machine.execJnp disp s
  | .jl disp => Sys2Proof.Machine.execJl disp s
  | .jnl disp => Sys2Proof.Machine.execJnl disp s
  | .jle disp => Sys2Proof.Machine.execJle disp s
  | .jg disp => Sys2Proof.Machine.execJg disp s
  | .loopnz disp => Sys2Proof.Machine.execLoopnz disp s
  | .loopz disp => Sys2Proof.Machine.execLoopz disp s
  | .loop disp => Sys2Proof.Machine.execLoop disp s
  | .jcxz disp => Sys2Proof.Machine.execJcxz disp s

end Sys2Proof.Machine
end

