-- ==== Sys2Proof/Machine/Fetch.lean ====
section
/-! DEFINITION. What a step does around an instruction's meaning (46_step.md R230, R231): the start conditions, the
absorbing end states, fetching and decoding at PC, and the end test after it; and placing an instruction at PC. -/

namespace Sys2Proof.Machine

/-- What stands at the head of a step. -/
inductive Fetch where
  | notStarted              -- the start conditions do not hold: StartRefused (60_exceptions.md R255)
  | ended                   -- ST is Halted or Faulted: no step is taken (10_state.md R31)
  | truncated               -- DecodeTruncated (30_encoding.md R90)
  | unrecognised (b0 : Byte)  -- no class matches the byte at PC (30_encoding.md R86)
  | instr (i : Instr)
deriving DecidableEq, Repr

/-- `IFetch(off)` of 20_memory.md R51: the byte at `off`, or none (DecodeTruncated) when `off >= LEN`. -/
def ifetch (s : State) (off : Nat) : Option Byte := s.ibuf[off]?

/-- The loaded bytes from PC on: what `IFetch` can still return (R51). -/
def State.bytesAtPc (s : State) : List Byte := s.ibuf.drop s.pc.toNat

/-- The head of a step: StartRefused is tested before anything else (60_exceptions.md R257); a run that ended takes no
step (R31); else Decode(PC) (30_encoding.md R93). -/
def fetch (s : State) : Fetch :=
  if s.startOk then
    match s.st with
    | .running =>
      match decode s.bytesAtPc with
      | .truncated => .truncated
      | .unrecognised b0 => .unrecognised b0
      | .instr i => .instr i
    | .halted | .faulted => .ended
  else .notStarted

/-- The end test after an instruction's meaning (46_step.md R231). -/
def thenEndTest : Host.Outcome State Fault Refusal → Host.Outcome State Fault Refusal
  | .next s => .next (endTest s)
  | .fault r => .fault r
  | .refused r => .refused r

/-- The offset at which `placeAtPc` puts its bytes: PC, or 0 where the bytes would not fit below IBUF_MAX. -/
def State.placeOffset (s : State) (n : Nat) : Nat :=
  if s.pc.toNat + n ≤ Config.ibufMax then s.pc.toNat else 0

/-- Store bytes in IBUF where the next step fetches, so that they run next: LEN is made long enough, ST is Running with
no CAUSE, and PC moves to 0 only where the bytes would not fit below IBUF_MAX (log entry 3). -/
def State.placeAtPc (s : State) (bytes : List Byte) : State :=
  let off := s.placeOffset bytes.length
  let before := (s.ibuf ++ List.replicate (off - s.len) 0).take off
  { s with
    ibuf := (before ++ bytes ++ s.ibuf.drop (off + bytes.length)).take Config.ibufMax
    pc := BitVec.ofNat 16 off
    st := .running
    cause := none }

end Sys2Proof.Machine
end

