-- ==== Sys2Proof/Machine/Step.lean ====
section
/-! DEFINITION. One step of the block (46_step.md R230), and where the host's questions put an instruction. -/

namespace Sys2Proof.Machine

/-- One step (46_step.md R230, R231): StartRefused where the start conditions fail; nothing once the run has ended
(R234); a fatal DecodeTruncated with no other effect; one byte skipped with a diagnostic; or the instruction's meaning;
and the end test after the last two. -/
def step (s : State) : Host.Outcome State Fault Refusal :=
  match fetch s with
  | .notStarted => .refused .startRefused
  | .ended => .next s
  | .truncated => .next (raiseFatal .decodeTruncated s)
  | .unrecognised b0 => .next (endTest (skipUnrecognised b0 s))
  | .instr i => thenEndTest (exec i s)

/-- `s` with the instruction of these table bits stored where the next step fetches (log entries 3 and 4). -/
def State.withFetchWord (s : State) (nbits w : Nat) : State := s.placeAtPc (tableBytes nbits w)

end Sys2Proof.Machine
end

