-- ==== Sys2Proof/Machine/Disasm.lean ====
section
/-! DEFINITION. The disassembly emitter (45_disassembly.md R210 to R219): the text of a trace record, a function of the
record alone (R210, R219), and the text of the final dump (60_exceptions.md R265). -/

namespace Sys2Proof

/-- An unsigned decimal literal, no leading zeros (R213). -/
def decimal (n : Nat) : String := Nat.repr n

/-- `n` padded on the left with zeros to at least `k` hexadecimal digits, lower case. -/
def hexDigits (k n : Nat) : List Char :=
  let ds := Nat.toDigits 16 n
  List.replicate (k - ds.length) '0' ++ ds

/-- The canonical register name (R211; 10_state.md R22). -/
def regName (w : Width) (code : RegCode) : String := (Machine.regLookup w code).name

/-- The base text of the r/m field (R215). -/
def Base.text : Base → String
  | .bxSi => "bx + si"
  | .bxDi => "bx + di"
  | .bpSi => "bp + si"
  | .bpDi => "bp + di"
  | .si => "si"
  | .di => "di"
  | .bp => "bp"
  | .bx => "bx"

/-- The displacement's text: omitted when zero, a minus sign when negative (R215). -/
def dispText (v : Int) : String :=
  if v = 0 then "" else if 0 < v then " + " ++ decimal v.natAbs else " - " ++ decimal v.natAbs

/-- The r/m operand's text (R211, R215). -/
def Rm.text (w : Width) : Rm → String
  | .reg c => regName w c
  | .base b => "[" ++ b.text ++ "]"
  | .direct a => "[" ++ decimal a.toNat ++ "]"
  | .disp8 b d => "[" ++ b.text ++ dispText d.toInt ++ "]"
  | .disp16 b d => "[" ++ b.text ++ dispText d.toInt ++ "]"

/-- Whether an r/m operand is memory (R213). -/
def Rm.isMem : Rm → Bool
  | .reg _ => false
  | .base _ | .direct _ | .disp8 .. | .disp16 .. => true

/-- The immediate's unsigned decimal value, after assembly (R213). -/
def Imm.text : Imm → String
  | .byte v => decimal v.toNat
  | .word v => decimal v.toNat

/-- The width word that stands before an immediate when the destination is memory (R213). -/
def widthWord (rm : Rm) (w : Width) : String :=
  if rm.isMem then
    match w with
    | .byte => "byte "
    | .word => "word "
  else ""

/-- The arithmetic mnemonics (R214). -/
def ArithOp.text : ArithOp → String
  | .add => "add"
  | .or => "or"
  | .adc => "adc"
  | .sbb => "sbb"
  | .and => "and"
  | .sub => "sub"
  | .xor => "xor"
  | .cmp => "cmp"

/-- The canonical jump mnemonics (R214; 43_jumps.md R160). -/
def Cond.text : Cond → String
  | .o => "jo"
  | .no => "jno"
  | .b => "jb"
  | .nb => "jnb"
  | .z => "jz"
  | .nz => "jnz"
  | .be => "jbe"
  | .a => "ja"
  | .s => "js"
  | .ns => "jns"
  | .p => "jp"
  | .np => "jnp"
  | .l => "jl"
  | .nl => "jnl"
  | .le => "jle"
  | .g => "jg"

/-- The loop mnemonics (R214; 43_jumps.md R160). -/
def LoopKind.text : LoopKind → String
  | .loopnz => "loopnz"
  | .loopz => "loopz"
  | .loop => "loop"
  | .jcxz => "jcxz"

/-- A jump's operand: the target relative to the jump's own first byte (R216). -/
def jumpText (disp : Byte) : String :=
  let k : Int := 2 + disp.toInt
  (if 0 ≤ k then "$+" else "$-") ++ decimal k.natAbs

/-- `dst, src` (R210, R212). -/
def twoOperands (dst src : String) : String := " " ++ dst ++ ", " ++ src

/-- The two operands of classes (a) and (e), in the order the direction bit says (R212). -/
def rmOperandsText (d : Dir) (w : Width) (reg : RegCode) (rm : Rm) : String :=
  match d with
  | .toRm => twoOperands (rm.text w) (regName w reg)
  | .toReg => twoOperands (regName w reg) (rm.text w)

/-- The operands of classes (b) and (f): r/m first, then the immediate (R212, R213). -/
def rmImmText (rm : Rm) (imm : Imm) : String :=
  twoOperands (rm.text imm.width) (widthWord rm imm.width ++ imm.text)

/-- The operands of classes (c) and (g): a register, then the immediate (R212, R213). -/
def regImmText (reg : RegCode) (imm : Imm) : String := twoOperands (regName imm.width reg) imm.text

/-- The line of a recognised instruction (R210). -/
def Record.text : Record → String
  | .movRm d w reg rm => "mov" ++ rmOperandsText d w reg rm
  | .movRmImm rm imm => "mov" ++ rmImmText rm imm
  | .movRegImm reg imm => "mov" ++ regImmText reg imm
  | .movAcc w addr => "mov" ++ twoOperands (regName w .r0) ("[" ++ decimal addr.toNat ++ "]")
  | .arithRm op d w reg rm => op.text ++ rmOperandsText d w reg rm
  | .arithRmImm op rm imm => op.text ++ rmImmText rm imm.assembled
  | .arithAcc op imm => op.text ++ regImmText .r0 imm
  | .jcc cc d => cc.text ++ " " ++ jumpText d
  | .loopj k d => k.text ++ " " ++ jumpText d

/-- The diagnostic line of an unrecognised byte, two upper-case hexadecimal digits (R217). -/
def diagText (b : Byte) : String :=
  "; unrecognized byte 0x" ++ String.ofList ((hexDigits 2 b.toNat).map Char.toUpper)

namespace Machine

/-- A dump line of a 16-bit value: four lower-case hexadecimal digits (60_exceptions.md R265). -/
def hexLine (name : String) (v : Word) : String := name ++ ": 0x" ++ String.ofList (hexDigits 4 v.toNat)

/-- A dump line of a flag. -/
def flagLine (name : String) (b : Bool) : String := name ++ ": " ++ (if b then "1" else "0")

/-- The dump's status line (60_exceptions.md R265). A dump is emitted only when ST leaves Running, so the first line
is never emitted. -/
def statusLine (st : RunStatus) (cause : Option FatalEvent) : String :=
  match st with
  | .running => "status: running"
  | .halted => "status: halted"
  | .faulted => "status: faulted " ++ decimal (cause.elim 0 FatalEvent.code)

/-- The dump's text form, one item per line (60_exceptions.md R265). -/
def Dump.lines (d : Dump) : List String :=
  [hexLine "ax" d.regs.ax, hexLine "cx" d.regs.cx, hexLine "dx" d.regs.dx, hexLine "bx" d.regs.bx,
   hexLine "sp" d.regs.sp, hexLine "bp" d.regs.bp, hexLine "si" d.regs.si, hexLine "di" d.regs.di,
   hexLine "pc" d.pc, flagLine "sf" d.sf, flagLine "zf" d.zf, "cycles: " ++ decimal d.cyc,
   statusLine d.st d.cause]

/-- The text lines of a trace record (60_exceptions.md R264): one for an instruction or a diagnostic, none for a fault
record (R264 gives it a code and a PC and no text), the dump's lines for a dump. -/
def TraceRecord.text : TraceRecord → List String
  | .instr _ rec _ => [rec.text]
  | .diag _ b => [diagText b]
  | .fault _ _ => []
  | .dump d => d.lines

/-- Everything the trace port has printed since reset. -/
def State.printed (s : State) : List String := s.trace.flatMap TraceRecord.text

end Machine

end Sys2Proof
end

