-- ==== Sys2Proof/Safety.lean ====
section
/-! DEFINITION. What a safe run is, in the terms the claims use: the machine invariant, a clean end of run
(60_exceptions.md R259), equality of states up to the cycle estimate (44_cycle_cost.md R196), and what an instruction
leaves unchanged, with its results as exact integers narrowed at the end. -/

namespace Sys2Proof.Machine

/-- ST agrees with PC, LEN and CAUSE at a step boundary (10_state.md R31; 46_step.md R231; 60_exceptions.md R251). -/
def State.StatusAgrees (s : State) : Prop :=
  match s.st with
  | .running => s.pc.toNat < s.len ∧ s.cause = none
  | .halted => s.pc.toNat = s.len ∧ s.cause = none
  | .faulted =>
    (s.cause = some .decodeTruncated ∧ s.pc.toNat < s.len) ∨ (s.cause = some .pcOutOfRange ∧ s.len < s.pc.toNat)

/-- How many dumps the trace port has emitted. -/
def dumpCount (trace : List TraceRecord) : Nat :=
  trace.countP fun r => match r with
    | .dump _ => true
    | .instr .. | .diag .. | .fault .. => false

/-- The invariant every step keeps: memory in its canonical form, the dump emitted exactly when ST has left Running
(60_exceptions.md R265), and, once a program of legal length is loaded, the status in agreement with PC. -/
def State.Inv (s : State) : Prop :=
  s.mem.wf ∧ dumpCount s.trace = (if s.st = .running then 0 else 1) ∧ (s.startOk = true → s.StatusAgrees)

/-- The run ended normally: Halted, which no fault is (60_exceptions.md R259). -/
def State.CleanEnd (s : State) : Prop := s.st = .halted

/-- A trace record without the cycle total a dump carries. -/
def TraceRecord.sansCycles : TraceRecord → TraceRecord
  | .dump d => .dump { d with cyc := 0 }
  | .instr pc r e => .instr pc r e
  | .diag pc b => .diag pc b
  | .fault e pc => .fault e pc

/-- A state without its cycle table and cycle totals: what R196 says does not depend on CYCLES. -/
def State.sansCycles (s : State) : State :=
  { s with cyc := 0, cycles := CycleTable.default, trace := s.trace.map TraceRecord.sansCycles }

/-! ## Exact arithmetic, narrowed at the end -/

/-- The sum of the base registers as an exact number (40_operands.md R112). -/
def baseSum (b : Base) (r : Regs) : Int :=
  match b with
  | .bxSi => r.bx.toNat + r.si.toNat
  | .bxDi => r.bx.toNat + r.di.toNat
  | .bpSi => r.bp.toNat + r.si.toNat
  | .bpDi => r.bp.toNat + r.di.toNat
  | .si => r.si.toNat
  | .di => r.di.toNat
  | .bp => r.bp.toNat
  | .bx => r.bx.toNat

/-- The address of a memory form before it is reduced modulo 65536, displacements signed (40_operands.md R113, R114,
R115); none for a register (R111). -/
def exactAddress (rm : Rm) (r : Regs) : Option Int :=
  match rm with
  | .reg _ => none
  | .base b => some (baseSum b r)
  | .direct a => some a.toNat
  | .disp8 b d => some (baseSum b r + d.toInt)
  | .disp16 b d => some (baseSum b r + d.toInt)

/-- An immediate's value as a number. -/
def immValue : Imm → Int
  | .byte v => v.toNat
  | .word v => v.toNat

/-- A class (f) immediate's value as a number: signed where it is sign-extended (30_encoding.md R74). -/
def immSValue : ImmS → Int
  | .byte _ v => v.toNat
  | .word v => v.toNat
  | .sext v => v.toInt

/-- The exact number `x` reduced modulo 2^W (42_arith.md R155). -/
def narrowed (w : Width) (x : Int) : Int := x % (2 ^ w.bits : Int)

/-- The place holds the exact number `x` reduced modulo 2^W. -/
def Holds (w : Width) (p : Place) (x : Int) (t : State) : Prop := ((readPlace w p t).toNat : Int) = narrowed w x

/-- Both flags describe the exact result `x` reduced modulo 2^W: SF its top bit, ZF whether it is 0 (42_arith.md
R141). -/
def FlagsFrom (w : Width) (x : Int) (t : State) : Prop :=
  (t.sf = true ↔ (2 ^ (w.bits - 1) : Int) ≤ narrowed w x) ∧ (t.zf = true ↔ narrowed w x = 0)

/-! ## What an instruction leaves unchanged -/

/-- Every register and every byte of memory is as before, but for the destination: the named half of its slot at byte
width, the slot at word width, or the width's bytes from its address on. -/
structure Untouched (w : Width) (dst : Option Place) (s t : State) : Prop where
  slots : ∀ i : Slot, (∀ c, dst = some (.reg c) → (regLookup w c).index ≠ i) → t.regs.get i = s.regs.get i
  half  : ∀ c h, dst = some (.reg c) → w = .byte → byteHalf c ≠ h →
    h.read (t.regs.get (regLookup .byte c).index) = h.read (s.regs.get (regLookup .byte c).index)
  bytes : ∀ a : Nat, (∀ addr, dst = some (.mem addr) → a ≠ addr.toNat ∧
    (w = .word → a ≠ (addr.toNat + 1) % 65536)) → t.mem.read a = s.mem.read a

/-- Both flags are as before. -/
def FlagsKept (s t : State) : Prop := t.sf = s.sf ∧ t.zf = s.zf

/-- ST, CAUSE, IBUF with LEN, and CYCLES are as before: no instruction's own effect writes them. -/
def ControlKept (s t : State) : Prop := t.st = s.st ∧ t.cause = s.cause ∧ t.ibuf = s.ibuf ∧ t.cycles = s.cycles

/-- The instruction ended: CYC grew by its cost, and the trace port emitted its record with the mark `e` (46_step.md
R230; 60_exceptions.md R264). -/
def Accounted (i : Instr) (taken : Bool) (e : Effect) (s t : State) : Prop :=
  t.cyc = s.cyc + i.record.cost s.cycles taken ∧ t.trace = s.trace ++ [.instr s.pc i.record e]

/-- An instruction that falls through ended: PC moved past it (10_state.md R27), the cost and the record, with the mark
`e`, are made, and nothing else of the control state changed. -/
def FellThrough (i : Instr) (e : Effect) (s t : State) : Prop :=
  t.pc.toNat = (s.pc.toNat + i.len) % 65536 ∧ Accounted i false e s t ∧ ControlKept s t

/-! ## Runs -/

/-- A run: `k` steps of the block. -/
def State.runs (s : State) (k : Nat) (t : State) : Prop := Sys2Proof.core.run k s = .next t

end Sys2Proof.Machine
end

