-- ==== Sys2Proof/Certificates/Slice0/Obligations.lean ====
section
/-! DEFINITION. The statements for the provers. Each docstring names the rule or the section of spec/ it formalises. Where
a clause rests on one of the spec's own decisions D<n> (92_eei_decisions.md) or on a passage it marks as general
knowledge or derived, the statement is 'derived' and its docstring says so. -/

open Sys2Proof Sys2Proof.Machine

/-! ## Encoding -/

/-- Every well-formed instruction decodes back from its encoding, whatever bytes follow (30_encoding.md sections 1, 2
and 5; the bit patterns are the spec's D27). -/
def Obligations.DecodeOfEncodeIsTheInstruction : Prop :=
  ∀ (i : Instr) (rest : List Byte), i.wf = true → decode (encode i ++ rest) = .instr i

/-- Each byte sequence has one meaning: what decodes to `i` is well-formed, is long enough, and IS the encoding of `i`,
but for the three bits of class (b)'s addressing byte that are not examined (30_encoding.md sections 2, 3, 4; D11). -/
def Obligations.BytesThatDecodeAreTheEncoding : Prop :=
  ∀ (bs : List Byte) (i : Instr), decode bs = .instr i →
    i.wf = true ∧ i.len ≤ bs.length ∧
    (i.record.cls ≠ 'b' → bs.take i.len = encode i) ∧
    (i.record.cls = 'b' → ∃ b0 b1 rest, bs.take i.len = b0 :: b1 :: rest ∧ encode i = b0 :: (b1 &&& 0xC7) :: rest)

/-- The nine mask tests of 30_encoding.md section 2 decide alone whether a leading byte is recognised; an unrecognised
byte is one whatever follows it (section 3). -/
def Obligations.UnrecognisedExactlyWhereNoMaskMatches : Prop :=
  ∀ (b0 : Byte) (rest : List Byte), decode (b0 :: rest) = .unrecognised b0 ↔
    ¬ (b0 &&& 0xFC = 0x88 ∨ b0 &&& 0xFE = 0xC6 ∨ b0 &&& 0xF0 = 0xB0 ∨ b0 &&& 0xFE = 0xA0 ∨ b0 &&& 0xC4 = 0x00 ∨
       b0 &&& 0xFC = 0x80 ∨ b0 &&& 0xC6 = 0x04 ∨ b0 &&& 0xF0 = 0x70 ∨ b0 &&& 0xFC = 0xE0)

/-- An instruction cut short anywhere is DecodeTruncated (30_encoding.md section 4; D6). -/
def Obligations.EveryProperPrefixIsTruncated : Prop :=
  ∀ (i : Instr) (k : Nat), i.wf = true → k < i.len → decode ((encode i).take k) = .truncated

/-- The bits `b1[5:3]` of class (b) are not examined (30_encoding.md R77, R87 (1); D11). -/
def Obligations.ClassBIgnoresTheMiddleField : Prop :=
  ∀ (w : Bool) (b1 : Byte) (mid : BitVec 3) (rest : List Byte),
    decode ((0xC6 ||| (bit w).setWidth 8) :: b1 :: rest) =
    decode ((0xC6 ||| (bit w).setWidth 8) :: ((b1 &&& 0xC7) ||| (mid.setWidth 8 <<< 3)) :: rest)

/-- Words written out bit by bit from the spec's encodings, one of each class and the three immediates of class (f)
(95_test_vectors.md section 2.1: E1, E3, E4, E6, E9, E10, E12, E14, E16, E18, E23, E25, E29, E32). -/
def Obligations.WrittenOutWordsDecode : Prop :=
  decode [0x89, 0xD9] = .instr (.movRm .toRm .word .r3 (.reg .r1)) ∧
  decode [0x8B, 0x56, 0x00] = .instr (.movRm .toReg .word .r2 (.disp8 .bp 0)) ∧
  decode [0x8B, 0x16, 0xE8, 0x03] = .instr (.movRm .toReg .word .r2 (.direct 1000)) ∧
  decode [0xC7, 0x85, 0x85, 0x03, 0x5B, 0x01] = .instr (.movRmImm (.disp16 .di 901) (.word 347)) ∧
  decode [0xB5, 0xF4] = .instr (.movRegImm .r5 (.byte 244)) ∧
  decode [0xA1, 0xFB, 0x09] = .instr (.movAcc .word 2555) ∧
  decode [0x03, 0x18] = .instr (.addRm .toReg .word .r3 (.base .bxSi)) ∧
  decode [0x83, 0xC6, 0x02] = .instr (.addRmImm (.reg .r6) (.sext 2)) ∧
  decode [0x81, 0xC3, 0xFB, 0x00] = .instr (.addRmImm (.reg .r3) (.word 251)) ∧
  decode [0x82, 0xC3, 0xFB] = .instr (.addRmImm (.reg .r3) (.byte true 251)) ∧
  decode [0x2C, 0x09] = .instr (.subAcc (.byte 9)) ∧
  decode [0x75, 0xF8] = .instr (.jnz 0xF8) ∧
  decode [0xE2, 0xFE] = .instr (.loop 0xFE) ∧
  decode [0xA2, 0x34, 0x12] = .unrecognised 0xA2

/-! ## Registers, memory, operands -/

/-- RegRead (10_state.md R23): the slot at word width, its low or high eight bits at byte width, and both views alias:
a byte read after a word write sees that half of what was written. -/
def Obligations.ByteAndWordViewsAlias : Prop :=
  ∀ (r : Regs) (c b : RegCode) (v : Word),
    regRead .word c r = r.get (regLookup .word c).index ∧
    ((regLookup .byte b).half = some .low →
      (regRead .byte b r).toNat = (r.get (regLookup .byte b).index).toNat % 256) ∧
    ((regLookup .byte b).half = some .high →
      (regRead .byte b r).toNat = (r.get (regLookup .byte b).index).toNat / 256) ∧
    ((regLookup .byte b).index = (regLookup .word c).index → (regLookup .byte b).half = some .low →
      (regRead .byte b (regWrite .word c v r)).toNat = v.toNat % 256) ∧
    ((regLookup .byte b).index = (regLookup .word c).index → (regLookup .byte b).half = some .high →
      (regRead .byte b (regWrite .word c v r)).toNat = v.toNat / 256)

/-- RegWrite (10_state.md section 2; D2): what is written is read back; a byte write keeps the other half's number, and
no write changes another slot. -/
def Obligations.ByteWritesKeepTheOtherHalf : Prop :=
  ∀ (r : Regs) (c : RegCode) (v : Byte) (x : Word),
    regRead .byte c (regWrite .byte c v r) = v ∧
    regRead .word c (regWrite .word c x r) = x ∧
    ((regLookup .byte c).half = some .low →
      ((regWrite .byte c v r).get (regLookup .byte c).index).toNat =
        256 * ((r.get (regLookup .byte c).index).toNat / 256) + v.toNat) ∧
    ((regLookup .byte c).half = some .high →
      ((regWrite .byte c v r).get (regLookup .byte c).index).toNat =
        256 * v.toNat + (r.get (regLookup .byte c).index).toNat % 256) ∧
    (∀ i, i ≠ (regLookup .byte c).index → (regWrite .byte c v r).get i = r.get i) ∧
    (∀ i, i ≠ (regLookup .word c).index → (regWrite .word c x r).get i = r.get i)

/-- MemRead and MemWrite (20_memory.md R57): little-endian, the second byte at the next address modulo 65536, every
other byte as before. -/
def Obligations.WordAccessIsTwoByteAccesses : Prop :=
  ∀ (m : Memory) (addr v : Word) (b : Byte) (a : Nat),
    memRead .byte addr m = m.read addr.toNat ∧
    (memRead .word addr m).toNat =
      256 * (m.read ((addr.toNat + 1) % 65536)).toNat + (m.read addr.toNat).toNat ∧
    (memWrite .byte addr b m).read a = (if a = addr.toNat then b else m.read a) ∧
    ((memWrite .word addr v m).read a).toNat =
      (if a = addr.toNat then v.toNat % 256
       else if a = (addr.toNat + 1) % 65536 then v.toNat / 256 else (m.read a).toNat)

/-- The resolver (40_operands.md section: R111 to R115): mode 3 is the register; a memory form is the exact sum of its
base registers and its signed displacement, reduced modulo 65536 (the reduction is D8). -/
def Obligations.ResolverGivesTheReducedExactAddress : Prop :=
  ∀ (rm : Rm) (r : Regs),
    (∀ c, rm = .reg c → resolve rm r = .reg c) ∧
    (∀ x, exactAddress rm r = some x → ∃ a : Word, resolve rm r = .mem a ∧ (a.toNat : Int) = x % 65536)

/-! ## MOV -/

/-- All four MOV forms (41_mov.md R130): the destination holds what the source held before the instruction, at the
instruction's width; nothing else is touched, no flag among it; PC moves past the instruction, whose record is marked
Executed. -/
def Obligations.MovCopiesAndTouchesNoFlag : Prop :=
  (∀ (d : Dir) (w : Width) (reg : RegCode) (rm : Rm) (s : State),
    ∃ t, exec (.movRm d w reg rm) s = .next t ∧
      readPlace w (destPlace d reg rm s.regs) t = readPlace w (srcPlace d reg rm s.regs) s ∧
      Untouched w (some (destPlace d reg rm s.regs)) s t ∧ FlagsKept s t ∧
      FellThrough (.movRm d w reg rm) .executed s t) ∧
  (∀ (rm : Rm) (imm : Imm) (s : State),
    ∃ t, exec (.movRmImm rm imm) s = .next t ∧
      readPlace imm.width (resolve rm s.regs) t = imm.val ∧
      Untouched imm.width (some (resolve rm s.regs)) s t ∧ FlagsKept s t ∧
      FellThrough (.movRmImm rm imm) .executed s t) ∧
  (∀ (reg : RegCode) (imm : Imm) (s : State),
    ∃ t, exec (.movRegImm reg imm) s = .next t ∧
      regRead imm.width reg t.regs = imm.val ∧
      Untouched imm.width (some (.reg reg)) s t ∧ FlagsKept s t ∧
      FellThrough (.movRegImm reg imm) .executed s t) ∧
  (∀ (w : Width) (addr : Word) (s : State),
    ∃ t, exec (.movAcc w addr) s = .next t ∧
      regRead w .r0 t.regs = memRead w addr s.mem ∧
      Untouched w (some (.reg .r0)) s t ∧ FlagsKept s t ∧
      FellThrough (.movAcc w addr) .executed s t)

/-- A register that is both the destination and part of the address gives its old value to the address, whatever
base the form uses (40_operands.md section: the order inside one instruction, R120; D21). -/
def Obligations.LoadUsesTheOldBase : Prop :=
  ∀ (b : Base) (disp : Word) (code : RegCode) (s : State),
    ∃ t, exec (.movRm .toReg .word code (.disp16 b disp)) s = .next t ∧
      ∃ a : Word, (a.toNat : Int) = (baseSum b s.regs + disp.toInt) % 65536 ∧
        (t.regs.get (regLookup .word code).index).toNat =
          256 * (s.mem.read ((a.toNat + 1) % 65536)).toNat + (s.mem.read a.toNat).toNat

/-! ## Arithmetic -/

/-- ADD in its three forms (42_arith.md sections 1 and 2, ADD; byte width D3): the destination holds the sum modulo 2^W,
both flags describe it, everything else is as before, and the record is marked Executed. -/
def Obligations.AddWritesTheSumAndBothFlags : Prop :=
  (∀ (d : Dir) (w : Width) (reg : RegCode) (rm : Rm) (s : State),
    ∃ t, exec (.addRm d w reg rm) s = .next t ∧
      (let dst := destPlace d reg rm s.regs
       let x : Int := (readPlace w dst s).toNat + (readPlace w (srcPlace d reg rm s.regs) s).toNat
       Holds w dst x t ∧ FlagsFrom w x t ∧ Untouched w (some dst) s t) ∧
      FellThrough (.addRm d w reg rm) .executed s t) ∧
  (∀ (rm : Rm) (imm : ImmS) (s : State),
    ∃ t, exec (.addRmImm rm imm) s = .next t ∧
      (let w := imm.assembled.width
       let dst := resolve rm s.regs
       let x : Int := (readPlace w dst s).toNat + immSValue imm
       Holds w dst x t ∧ FlagsFrom w x t ∧ Untouched w (some dst) s t) ∧
      FellThrough (.addRmImm rm imm) .executed s t) ∧
  (∀ (imm : Imm) (s : State),
    ∃ t, exec (.addAcc imm) s = .next t ∧
      (let x : Int := (regRead imm.width .r0 s.regs).toNat + immValue imm
       Holds imm.width (.reg .r0) x t ∧ FlagsFrom imm.width x t ∧ Untouched imm.width (some (.reg .r0)) s t) ∧
      FellThrough (.addAcc imm) .executed s t)

/-- SUB in its three forms (42_arith.md sections 1 and 2, SUB; byte width D3, operand order D25): the destination holds
destination minus source modulo 2^W, both flags describe it, everything else is as before, and the record is marked
Executed. -/
def Obligations.SubWritesTheDifferenceAndBothFlags : Prop :=
  (∀ (d : Dir) (w : Width) (reg : RegCode) (rm : Rm) (s : State),
    ∃ t, exec (.subRm d w reg rm) s = .next t ∧
      (let dst := destPlace d reg rm s.regs
       let x : Int := (readPlace w dst s).toNat - (readPlace w (srcPlace d reg rm s.regs) s).toNat
       Holds w dst x t ∧ FlagsFrom w x t ∧ Untouched w (some dst) s t) ∧
      FellThrough (.subRm d w reg rm) .executed s t) ∧
  (∀ (rm : Rm) (imm : ImmS) (s : State),
    ∃ t, exec (.subRmImm rm imm) s = .next t ∧
      (let w := imm.assembled.width
       let dst := resolve rm s.regs
       let x : Int := (readPlace w dst s).toNat - immSValue imm
       Holds w dst x t ∧ FlagsFrom w x t ∧ Untouched w (some dst) s t) ∧
      FellThrough (.subRmImm rm imm) .executed s t) ∧
  (∀ (imm : Imm) (s : State),
    ∃ t, exec (.subAcc imm) s = .next t ∧
      (let x : Int := (regRead imm.width .r0 s.regs).toNat - immValue imm
       Holds imm.width (.reg .r0) x t ∧ FlagsFrom imm.width x t ∧ Untouched imm.width (some (.reg .r0)) s t) ∧
      FellThrough (.subAcc imm) .executed s t)

/-- CMP in its three forms (42_arith.md sections 1 and 2, CMP; byte width D3, operand order D25): both flags describe
destination minus source modulo 2^W, no register and no byte of memory is written, and the record is marked Executed. -/
def Obligations.CmpSetsBothFlagsAndWritesNothing : Prop :=
  (∀ (d : Dir) (w : Width) (reg : RegCode) (rm : Rm) (s : State),
    ∃ t, exec (.cmpRm d w reg rm) s = .next t ∧
      FlagsFrom w ((readPlace w (destPlace d reg rm s.regs) s).toNat -
        (readPlace w (srcPlace d reg rm s.regs) s).toNat) t ∧
      Untouched w none s t ∧ FellThrough (.cmpRm d w reg rm) .executed s t) ∧
  (∀ (rm : Rm) (imm : ImmS) (s : State),
    ∃ t, exec (.cmpRmImm rm imm) s = .next t ∧
      FlagsFrom imm.assembled.width
        ((readPlace imm.assembled.width (resolve rm s.regs) s).toNat - immSValue imm) t ∧
      Untouched imm.assembled.width none s t ∧ FellThrough (.cmpRmImm rm imm) .executed s t) ∧
  (∀ (imm : Imm) (s : State),
    ∃ t, exec (.cmpAcc imm) s = .next t ∧
      FlagsFrom imm.width ((regRead imm.width .r0 s.regs).toNat - immValue imm) t ∧
      Untouched imm.width none s t ∧ FellThrough (.cmpAcc imm) .executed s t)

/-- "Executing CMP must update flags identically to SUB but must not alter the destination register's stored value"
(95_test_vectors.md section 1, T5; 42_arith.md section 3, CMP): in each form, from any state. -/
def Obligations.CmpFlagsAreThoseOfSub : Prop :=
  (∀ (d : Dir) (w : Width) (reg : RegCode) (rm : Rm) (s : State),
    ∃ t u, exec (.cmpRm d w reg rm) s = .next t ∧ exec (.subRm d w reg rm) s = .next u ∧
      FlagsKept u t ∧ t.regs = s.regs ∧ t.mem = s.mem) ∧
  (∀ (rm : Rm) (imm : ImmS) (s : State),
    ∃ t u, exec (.cmpRmImm rm imm) s = .next t ∧ exec (.subRmImm rm imm) s = .next u ∧
      FlagsKept u t ∧ t.regs = s.regs ∧ t.mem = s.mem) ∧
  (∀ (imm : Imm) (s : State),
    ∃ t u, exec (.cmpAcc imm) s = .next t ∧ exec (.subAcc imm) s = .next u ∧
      FlagsKept u t ∧ t.regs = s.regs ∧ t.mem = s.mem)

/-- The five operations with no effect, in their three forms (42_arith.md section 1, R146; D15, D30): only PC, CYC and the
trace change, and the trace record is marked NoEffect. -/
def Obligations.FiveOperationsHaveNoEffect : Prop :=
  ∀ (d : Dir) (w : Width) (reg : RegCode) (rm : Rm) (immS : ImmS) (imm : Imm) (i : Instr) (s : State),
    i ∈ [.orRm d w reg rm, .orRmImm rm immS, .orAcc imm, .adcRm d w reg rm, .adcRmImm rm immS, .adcAcc imm,
         .sbbRm d w reg rm, .sbbRmImm rm immS, .sbbAcc imm, .andRm d w reg rm, .andRmImm rm immS, .andAcc imm,
         .xorRm d w reg rm, .xorRmImm rm immS, .xorAcc imm] →
    ∃ t, exec i s = .next t ∧ t.regs = s.regs ∧ t.mem = s.mem ∧ FlagsKept s t ∧
      FellThrough i .noEffect s t

/-- The sign-extend bit at byte width changes nothing but the recorded `s` (30_encoding.md section 1, R74; D12): 0x82
does what 0x80 does, for every operation. -/
def Obligations.SignExtendBitIsInertAtByteWidth : Prop :=
  ∀ (op : ArithOp) (rm : Rm) (v : Byte) (s : State),
    ∃ t u, exec (Record.toInstr (.arithRmImm op rm (.byte true v))) s = .next t ∧
      exec (Record.toInstr (.arithRmImm op rm (.byte false v))) s = .next u ∧
      t.regs = u.regs ∧ t.mem = u.mem ∧ FlagsKept u t ∧ t.pc = u.pc ∧ t.cyc = u.cyc

/-! ## Jumps -/

/-- JNZ (43_jumps.md R162): taken exactly when ZF is clear, to the offset of the byte after it plus the signed
displacement, modulo 2^16; no register, no memory byte and no flag is written; the cost is that of a taken or a
not-taken jump; a JNZ whose displacement byte is missing is DecodeTruncated. -/
def Obligations.JnzBranchesExactlyWhenZfIsClear : Prop :=
  (∀ (disp : Byte) (s : State),
    ∃ t, exec (.jnz disp) s = .next t ∧
      (s.zf = false → (t.pc.toNat : Int) = (s.pc.toNat + 2 + disp.toInt) % 65536) ∧
      (s.zf = true → t.pc.toNat = (s.pc.toNat + 2) % 65536) ∧
      t.cyc = s.cyc + (if s.zf then s.cycles.jccNotTaken else s.cycles.jccTaken) ∧
      t.regs = s.regs ∧ t.mem = s.mem ∧ FlagsKept s t ∧ ControlKept s t ∧
      t.trace = s.trace ++ [.instr s.pc (.jcc .nz disp) .executed]) ∧
  (∀ (disp : Byte) (rest : List Byte), decode (0x75 :: disp :: rest) = .instr (.jnz disp)) ∧
  (∀ s : State, s.startOk = true → s.st = .running → s.bytesAtPc = [0x75] →
    step s = .next (raiseFatal .decodeTruncated s))

/-- The nineteen other jumps and loops (43_jumps.md R182; costs D15): PC moves by 2 whatever the flags, CX and the
displacement hold, CYC grows by the not-taken cost of the kind, the record is marked NoEffect, nothing else changes. -/
def Obligations.NineteenJumpsOnlyFallThrough : Prop :=
  ∀ (d : Byte) (s : State) (i : Instr) (cost : Nat),
    (i, cost) ∈
      [(.jo d, s.cycles.jccNotTaken), (.jno d, s.cycles.jccNotTaken), (.jb d, s.cycles.jccNotTaken),
       (.jnb d, s.cycles.jccNotTaken), (.jz d, s.cycles.jccNotTaken), (.jbe d, s.cycles.jccNotTaken),
       (.ja d, s.cycles.jccNotTaken), (.js d, s.cycles.jccNotTaken), (.jns d, s.cycles.jccNotTaken),
       (.jp d, s.cycles.jccNotTaken), (.jnp d, s.cycles.jccNotTaken), (.jl d, s.cycles.jccNotTaken),
       (.jnl d, s.cycles.jccNotTaken), (.jle d, s.cycles.jccNotTaken), (.jg d, s.cycles.jccNotTaken),
       (.loopnz d, s.cycles.loopnzNotTaken), (.loopz d, s.cycles.loopzNotTaken),
       (.loop d, s.cycles.loopNotTaken), (.jcxz d, s.cycles.jcxzNotTaken)] →
    ∃ t, exec i s = .next t ∧ t.pc.toNat = (s.pc.toNat + 2) % 65536 ∧ t.cyc = s.cyc + cost ∧
      t.regs = s.regs ∧ t.mem = s.mem ∧ FlagsKept s t ∧ ControlKept s t ∧
      t.trace = s.trace ++ [.instr s.pc i.record .noEffect]

/-! ## The cycle cost -/

/-- The cost stage (44_cycle_cost.md R190): one addition per instruction, of a cost that is the record's and `taken`'s
alone, where `taken` says whether a JNZ was taken; the width bit does not enter; CYC never decreases. -/
def Obligations.CostIsAddedOncePerInstruction : Prop :=
  (∀ (i : Instr) (s t : State), exec i s = .next t →
    ∃ taken, (taken = true ↔ (∃ d, i = .jnz d) ∧ s.zf = false) ∧
      t.cyc = s.cyc + i.record.cost s.cycles taken ∧ s.cyc ≤ t.cyc) ∧
  (∀ (c : CycleTable) (k : Bool) (op : ArithOp) (d : Dir) (w w' : Width) (reg reg' : RegCode) (rm : Rm) (a a' : Word)
    (imm imm' : Imm) (immS immS' : ImmS),
    Record.cost c k (.movRm d w reg rm) = Record.cost c k (.movRm d w' reg' rm) ∧
    Record.cost c k (.movRmImm rm imm) = Record.cost c k (.movRmImm rm imm') ∧
    Record.cost c k (.movRegImm reg imm) = Record.cost c k (.movRegImm reg' imm') ∧
    Record.cost c k (.movAcc w a) = Record.cost c k (.movAcc w' a') ∧
    Record.cost c k (.arithRm op d w reg rm) = Record.cost c k (.arithRm op d w' reg' rm) ∧
    Record.cost c k (.arithRmImm op rm immS) = Record.cost c k (.arithRmImm op rm immS') ∧
    Record.cost c k (.arithAcc op imm) = Record.cost c k (.arithAcc op imm'))

/-- The effective-address component (44_cycle_cost.md section: R191; grouping C5, D14), seen on a load: each group of bases
has its two figures, and a displacement of value zero costs what no displacement costs. -/
def Obligations.AddressCostFollowsTheFourGroups : Prop :=
  ∀ (c : CycleTable) (w : Width) (reg : RegCode) (a : Word) (d8 : Byte) (d16 : Word) (b : Base),
    Record.cost c false (.movRm .toReg w reg (.direct a)) = c.movRM + c.eaDirect ∧
    Record.cost c false (.movRm .toReg w reg (.disp8 b 0)) = Record.cost c false (.movRm .toReg w reg (.base b)) ∧
    Record.cost c false (.movRm .toReg w reg (.disp16 b 0)) = Record.cost c false (.movRm .toReg w reg (.base b)) ∧
    (b ∈ [.si, .di, .bp, .bx] →
      Record.cost c false (.movRm .toReg w reg (.base b)) = c.movRM + c.eaSingle ∧
      (d8 ≠ 0 → Record.cost c false (.movRm .toReg w reg (.disp8 b d8)) = c.movRM + c.eaSingleDisp) ∧
      (d16 ≠ 0 → Record.cost c false (.movRm .toReg w reg (.disp16 b d16)) = c.movRM + c.eaSingleDisp)) ∧
    (b ∈ [.bxSi, .bpDi] →
      Record.cost c false (.movRm .toReg w reg (.base b)) = c.movRM + c.eaPair03 ∧
      (d8 ≠ 0 → Record.cost c false (.movRm .toReg w reg (.disp8 b d8)) = c.movRM + c.eaPair03Disp) ∧
      (d16 ≠ 0 → Record.cost c false (.movRm .toReg w reg (.disp16 b d16)) = c.movRM + c.eaPair03Disp)) ∧
    (b ∈ [.bxDi, .bpSi] →
      Record.cost c false (.movRm .toReg w reg (.base b)) = c.movRM + c.eaPair12 ∧
      (d8 ≠ 0 → Record.cost c false (.movRm .toReg w reg (.disp8 b d8)) = c.movRM + c.eaPair12Disp) ∧
      (d16 ≠ 0 → Record.cost c false (.movRm .toReg w reg (.disp16 b d16)) = c.movRM + c.eaPair12Disp))

/-- The instruction component (44_cycle_cost.md section: R192, R193; D15): each form's figure, the address component
added for a memory operand; CMP has its own figures and every other operation the "alu" ones. Class (b) with mod 3 and
class (c) are two rows of R192 with one field, `mov_ri`; that R192 is followed here against R87 (4) is the model's choice
(log entry 19). -/
def Obligations.InstructionCostFollowsTheTable : Prop :=
  ∀ (c : CycleTable) (k : Bool) (w : Width) (reg code : RegCode) (rm : Rm) (ea : Nat) (imm : Imm) (immS : ImmS)
    (a : Word) (op : ArithOp), rm.eaCost? c = some ea → op ≠ .cmp →
    (∀ d, Record.cost c k (.movRm d w reg (.reg code)) = c.movRR) ∧
    Record.cost c k (.movRm .toReg w reg rm) = c.movRM + ea ∧
    Record.cost c k (.movRm .toRm w reg rm) = c.movMR + ea ∧
    Record.cost c k (.movRmImm (.reg code) imm) = c.movRI ∧
    Record.cost c k (.movRmImm rm imm) = c.movMI + ea ∧
    Record.cost c k (.movRegImm reg imm) = c.movRI ∧
    Record.cost c k (.movAcc w a) = c.movAM ∧
    (∀ d, Record.cost c k (.arithRm op d w reg (.reg code)) = c.aluRR) ∧
    Record.cost c k (.arithRm op .toReg w reg rm) = c.aluRM + ea ∧
    Record.cost c k (.arithRm op .toRm w reg rm) = c.aluMR + ea ∧
    Record.cost c k (.arithRmImm op (.reg code) immS) = c.aluRI ∧
    Record.cost c k (.arithRmImm op rm immS) = c.aluMI + ea ∧
    Record.cost c k (.arithAcc op imm) = c.aluAI ∧
    (∀ d, Record.cost c k (.arithRm .cmp d w reg (.reg code)) = c.cmpRR) ∧
    Record.cost c k (.arithRm .cmp .toReg w reg rm) = c.cmpRM + ea ∧
    Record.cost c k (.arithRm .cmp .toRm w reg rm) = c.cmpMR + ea ∧
    Record.cost c k (.arithRmImm .cmp (.reg code) immS) = c.cmpRI ∧
    Record.cost c k (.arithRmImm .cmp rm immS) = c.cmpMI + ea ∧
    Record.cost c k (.arithAcc .cmp imm) = c.cmpAI

/-- No feedback (44_cycle_cost.md R196, which the spec marks as derived): two states that differ only in the cycle table
and the cycle totals step to states that differ only in those, and both step or neither. -/
def Obligations.CycleTableHasNoFeedback : Prop :=
  ∀ s s' : State, s.sansCycles = s'.sansCycles →
    (∀ t, step s = .next t → ∃ t', step s' = .next t' ∧ t.sansCycles = t'.sansCycles) ∧
    (∀ r, step s = .refused r → step s' = .refused r)

/-! ## The step, the end of a run, events -/

/-- A running block whose bytes at PC decode to `i` steps as `exec i` does, the end test after it (46_step.md section:
R230): PC is still that of the first byte when exec runs. -/
def Obligations.StepRunsTheDecodedInstruction : Prop :=
  ∀ (s u : State) (i : Instr), s.startOk = true → s.st = .running → i.wf = true →
    decode (s.ibuf.drop s.pc.toNat) = .instr i → exec i s = .next u → step s = .next (endTest u)

/-- The end test (46_step.md R231): after start and after every step that was not a truncated instruction, ST is
Halted exactly at PC = LEN, Faulted with CAUSE 2 and the fault record exactly above it, and Running below it. There is no
halt instruction: 0xF4 is unrecognised. -/
def Obligations.EndTestDecidesTheStatus : Prop :=
  (∀ s t : State, s.st = .running → decode s.bytesAtPc ≠ .truncated → step s = .next t →
    (t.pc.toNat = s.len ↔ t.st = .halted) ∧
    (s.len < t.pc.toNat ↔ t.st = .faulted) ∧
    (t.pc.toNat < s.len ↔ t.st = .running) ∧
    (s.len < t.pc.toNat → t.causeCode = 2 ∧ TraceRecord.fault .pcOutOfRange t.pc ∈ t.trace)) ∧
  (∀ (p : List Byte) (t : State), start p = .next t → t.pc.toNat < t.len ∧ t.st = .running) ∧
  (∀ rest : List Byte, decode (0xF4 :: rest) = .unrecognised 0xF4)

/-- PcOutOfRange (60_exceptions.md section 1; D5): the instruction that set PC is complete and stays complete, PC holds the
bad target, ST and CAUSE are set, and the fault record and the dump follow. -/
def Obligations.JumpOutOfRangeFaultsAfterCompleting : Prop :=
  ∀ (s u : State) (i : Instr), s.startOk = true → s.st = .running → decode s.bytesAtPc = .instr i →
    exec i s = .next u → s.len < u.pc.toNat →
    ∃ t, step s = .next t ∧ t.st = .faulted ∧ t.causeCode = 2 ∧ t.pc = u.pc ∧ t.regs = u.regs ∧ t.mem = u.mem ∧
      FlagsKept u t ∧ t.cyc = u.cyc ∧ t.ibuf = s.ibuf ∧ t.cycles = s.cycles ∧
      t.trace = u.trace ++ [.fault .pcOutOfRange u.pc, .dump t.dumpNow]

/-- Unrecognised (60_exceptions.md R252): a diagnostic, PC one further, nothing else, and ST stays Running; where that
byte was the last, the end test of the same step then halts the run with the dump (46_step.md R231, R234; its content
D24). 160 of the 256 leading bytes are unrecognised, and the diagnostic prints its one line. -/
def Obligations.UnrecognisedByteIsSkipped : Prop :=
  (∀ (s : State) (b0 : Byte) (rest : List Byte), s.startOk = true → s.st = .running → s.cause = none →
    s.bytesAtPc = b0 :: rest → decode s.bytesAtPc = .unrecognised b0 →
    ∃ t, step s = .next t ∧ t.pc.toNat = s.pc.toNat + 1 ∧ t.regs = s.regs ∧ t.mem = s.mem ∧ FlagsKept s t ∧
      t.cyc = s.cyc ∧ t.ibuf = s.ibuf ∧ t.cycles = s.cycles ∧ t.causeCode = 0 ∧
      (rest ≠ [] → t.st = .running ∧ t.trace = s.trace ++ [.diag s.pc b0]) ∧
      (rest = [] → t.st = .halted ∧ t.trace = s.trace ++ [.diag s.pc b0, .dump t.dumpNow])) ∧
  ((List.range 256).countP fun n => decide (decode [BitVec.ofNat 8 n] = .unrecognised (BitVec.ofNat 8 n))) = 160 ∧
  (∀ (pc : Word) (b : Byte), TraceRecord.text (.diag pc b) = [diagText b])

/-- DecodeTruncated (60_exceptions.md section 1; D6, and the dump after it D24): ST, CAUSE and the trace change, nothing
else. -/
def Obligations.TruncatedInstructionFaultsWithNoEffect : Prop :=
  ∀ s : State, s.startOk = true → s.st = .running → decode s.bytesAtPc = .truncated →
    ∃ t, step s = .next t ∧ t.st = .faulted ∧ t.causeCode = 1 ∧ t.pc = s.pc ∧ t.regs = s.regs ∧ t.mem = s.mem ∧
      FlagsKept s t ∧ t.cyc = s.cyc ∧ t.ibuf = s.ibuf ∧ t.cycles = s.cycles ∧
      t.trace = s.trace ++ [.fault .decodeTruncated s.pc, .dump t.dumpNow]

/-- Halted and Faulted are absorbing and only reset clears CYC (10_state.md R31, R37): from an ended run a step changes
nothing, and no step makes CYC smaller. The spec takes no step from an ended run; that the model's `step` answers the
same state there is the model's choice (log entry 6). -/
def Obligations.EndedRunsStandStillAndCyclesNeverDrop : Prop :=
  (∀ s : State, s.startOk = true → s.st ≠ .running → step s = .next s) ∧
  (∀ s t : State, step s = .next t → s.cyc ≤ t.cyc)

/-- The block runs exactly when 1 <= LEN <= 1024 (60_exceptions.md section 1 and 70_reset_and_hazards.md section 1; D19);
a refused start leaves no state. The spec tests LEN at start only: that every `step` is refused on a bad LEN is the
model's choice (log entry 8), and so is that a step from an ended run answers a next state (log entry 6). -/
def Obligations.StartRefusedExactlyOnBadLength : Prop :=
  (∀ s : State, step s = .refused .startRefused ↔ (s.len = 0 ∨ 1024 < s.len)) ∧
  (∀ p : List Byte, start p = .refused .startRefused ↔ (p.length = 0 ∨ 1024 < p.length)) ∧
  (∀ s : State, 1 ≤ s.len → s.len ≤ 1024 → ∃ t, step s = .next t)

/-- Reset (10_state.md section 8 and 70_reset_and_hazards.md section 1; the values are the spec's D7): zero everywhere,
PC at offset 0, no cause, every byte of data memory 0. That ST stands at Running with nothing loaded is the model's own
choice (log entry 1). -/
def Obligations.ResetLeavesZeroEverywhere : Prop :=
  (∀ i, State.reset.regs.get i = 0) ∧ State.reset.pc = 0 ∧ State.reset.sf = false ∧ State.reset.zf = false ∧
  State.reset.cyc = 0 ∧ State.reset.causeCode = 0 ∧ (∀ a, State.reset.mem.read a = 0) ∧
  State.reset.st = .running ∧ State.reset.trace = []

/-! ## Whole-machine rules -/

/-- The invariant that every step keeps: data memory in its canonical form, the dump emitted exactly when ST left
Running, and ST in agreement with PC, LEN and CAUSE (10_state.md section 5; 46_step.md R231, R234). The canonical form of
memory is the model's choice of representation (log entry 13), and so is the trace in State (log entry 15). -/
def Obligations.StepKeepsTheMachineInvariant : Prop :=
  ∀ s t : State, s.Inv → step s = .next t → t.Inv

/-- Reset has the invariant, and so has every started program (10_state.md R36; 70_reset_and_hazards.md R283). That ST is
Running in State.reset with nothing loaded (log entry 1) and the canonical form of memory (log entry 13) are the
model's choices, on which this rests. -/
def Obligations.ResetAndStartHaveTheInvariant : Prop :=
  State.reset.Inv ∧ ∀ (p : List Byte) (t : State), start p = .next t → t.Inv

/-- A store can never change the program (20_memory.md R64): no step changes its bytes or its length, and what is
fetched does not depend on data memory. The cycle table is fixed for the run (00_scope.md R6); that it is a field of
State is the model's choice (log entry 5). -/
def Obligations.NoStepChangesTheProgram : Prop :=
  (∀ s t : State, step s = .next t → t.ibuf = s.ibuf ∧ t.len = s.len ∧ t.cycles = s.cycles) ∧
  (∀ (s : State) (m : Memory), fetch (s.withMem m) = fetch s)

/-- Only ADD, SUB and CMP write a flag (10_state.md section 4; 46_step.md, the table of R235, which is derived). -/
def Obligations.OnlyAddSubCmpWriteFlags : Prop :=
  ∀ s t : State, step s = .next t → ¬ FlagsKept s t →
    ∃ i, decode s.bytesAtPc = .instr i ∧ i.record.op? ∈ [some .add, some .sub, some .cmp]

/-- Memory changes only by MOV, ADD or SUB with a memory destination, and only in the bytes it stores (20_memory.md
section 4; 46_step.md, the table of R235, which is derived). -/
def Obligations.OnlyStoresWriteMemory : Prop :=
  ∀ (s t : State) (a : Nat), step s = .next t → t.mem.read a ≠ s.mem.read a →
    ∃ (i : Instr) (w : Width) (rm : Rm) (addr : Word), decode s.bytesAtPc = .instr i ∧
      i.record.rmOperand? = some rm ∧ i.record.w? = some w ∧ resolve rm s.regs = .mem addr ∧
      i.record.d? ≠ some .toReg ∧ i.record.op? ∈ [none, some .add, some .sub] ∧
      (a = addr.toNat ∨ (w = .word ∧ a = (addr.toNat + 1) % 65536))

/-- Registers change only by MOV, ADD or SUB, one slot at a time; in particular CX is never counted down
(10_state.md section 2, R25). -/
def Obligations.OneStepWritesAtMostOneRegister : Prop :=
  ∀ (s t : State) (i j : Slot), step s = .next t → t.regs.get i ≠ s.regs.get i → t.regs.get j ≠ s.regs.get j →
    i = j ∧ ∃ x, decode s.bytesAtPc = .instr x ∧
      x.record.cls ∈ ['a', 'b', 'c', 'd', 'e', 'f', 'g'] ∧ x.record.op? ∈ [none, some .add, some .sub]

/-- PC goes beyond LEN only by a taken JNZ (46_step.md R232, whose first sentence is derived). -/
def Obligations.OnlyATakenJnzLeavesTheProgram : Prop :=
  ∀ s t : State, s.pc.toNat ≤ s.len → step s = .next t → s.len < t.pc.toNat →
    ∃ d, decode s.bytesAtPc = .instr (.jnz d) ∧ s.zf = false

/-- Progress (46_step.md R233, derived): a step of a running block ends the run or moves PC, but for a taken JNZ with
displacement -2. -/
def Obligations.EveryStepEndsTheRunOrMovesPc : Prop :=
  ∀ s t : State, s.st = .running → step s = .next t → t.st = .running → t.pc = s.pc →
    decode s.bytesAtPc = .instr (.jnz 0xFE) ∧ s.zf = false

/-- The trace port (60_exceptions.md section 6; D23, D24): a step of a running block appends one record of its own, and
where it ends the run the fault record if it faulted and then the one dump, of the final state. An instruction's record
is marked NoEffect for OR, ADC, SBB, AND, XOR, the loops and every jump but JNZ (cc 5), else Executed (R264). That the
records emitted so far stand in State is the model's choice (log entry 15). -/
def Obligations.TraceGrowsByTheStepsRecords : Prop :=
  ∀ s t : State, s.st = .running → step s = .next t →
    ∃ own : List TraceRecord,
      (decode s.bytesAtPc = .truncated → own = []) ∧
      (∀ b0, decode s.bytesAtPc = .unrecognised b0 → own = [.diag s.pc b0]) ∧
      (∀ i, decode s.bytesAtPc = .instr i → ∃ e, own = [.instr s.pc i.record e] ∧
        (e = .noEffect ↔ i.record.op? ∈ [some .or, some .adc, some .sbb, some .and, some .xor] ∨
          i.record.cls = 'i' ∨ (i.record.cls = 'h' ∧ i.record.cc? ≠ some 5))) ∧
      (t.st = .running → t.trace = s.trace ++ own) ∧
      (t.st = .halted → t.trace = s.trace ++ own ++ [.dump t.dumpNow]) ∧
      (t.st = .faulted → ∃ e, t.cause = some e ∧ t.trace = s.trace ++ own ++ [.fault e t.pc, .dump t.dumpNow])

/-! ## Text -/

/-- Memory operands and jump operands as text (45_disassembly.md sections: R215, R216; D17): a zero displacement is
omitted, a negative one has a minus sign, a jump shows its target relative to its own first byte. -/
def Obligations.DisplacementTextFollowsItsSign : Prop :=
  ∀ (w : Width) (b : Base) (d8 : Byte) (d16 : Word) (n : Nat), 0 < n →
    Rm.text w (.disp8 b 0) = Rm.text w (.base b) ∧ Rm.text w (.disp16 b 0) = Rm.text w (.base b) ∧
    (d8.toInt = n → Rm.text w (.disp8 b d8) = "[" ++ (b.text ++ (" + " ++ decimal n)) ++ "]") ∧
    (d8.toInt = -n → Rm.text w (.disp8 b d8) = "[" ++ (b.text ++ (" - " ++ decimal n)) ++ "]") ∧
    (d16.toInt = n → Rm.text w (.disp16 b d16) = "[" ++ (b.text ++ (" + " ++ decimal n)) ++ "]") ∧
    (d16.toInt = -n → Rm.text w (.disp16 b d16) = "[" ++ (b.text ++ (" - " ++ decimal n)) ++ "]") ∧
    (d8.toInt + 2 = n → jumpText d8 = "$+" ++ decimal n) ∧
    (d8.toInt + 2 = -n → jumpText d8 = "$-" ++ decimal n)

/-- Lines of 95_test_vectors.md sections 1 and 2.1 (T2, E1, E3, E4, E5, E6, E15, E19, E25, E29, E31), from bytes to text:
operand order by the direction bit, width words, signs, decimal literals; a diagnostic (45_disassembly.md section: R217)
and a dump (60_exceptions.md section 6). -/
def Obligations.WrittenOutBytesPrintTheirLines : Prop :=
  (∀ (bs : List Byte) (line : String),
    (bs, line) ∈ [([0x89, 0xD9], "mov cx, bx"), ([0x8B, 0xD9], "mov bx, cx"), ([0x88, 0xD9], "mov cl, bl"),
      ([0x8B, 0x56, 0x00], "mov dx, [bp]"), ([0x8B, 0x16, 0xE8, 0x03], "mov dx, [1000]"),
      ([0xC6, 0x03, 0x07], "mov [bp + di], byte 7"), ([0xC7, 0x85, 0x85, 0x03, 0x5B, 0x01], "mov [di + 901], word 347"),
      ([0x83, 0xC3, 0xFB], "add bx, 65531"), ([0x83, 0x3E, 0xE2, 0x12, 0x1D], "cmp [4834], word 29"),
      ([0x75, 0xF8], "jnz $-6"), ([0xE2, 0xFE], "loop $+0")] →
    ∃ i, decode bs = .instr i ∧ i.record.text = line) ∧
  diagText 0x9A = "; unrecognized byte 0x9A" ∧
  Dump.lines ⟨⟨0x12ab, 0, 1, 0, 0, 0, 0, 0xffff⟩, 24, false, true, 123, .faulted, some .pcOutOfRange⟩ =
    ["ax: 0x12ab", "cx: 0x0000", "dx: 0x0001", "bx: 0x0000", "sp: 0x0000", "bp: 0x0000", "si: 0x0000", "di: 0xffff",
     "pc: 0x0018", "sf: 0", "zf: 1", "cycles: 123", "status: faulted 2"]

/-! ## The tables of names -/

/-- The register table (10_state.md R22; names and codes are the spec's general knowledge, the storage order its D1): at
word width code k names slot k; at byte width codes 0 to 3 name the low halves of slots 0 to 3 and codes 4 to 7 their
high halves. Reading gives the slot or half, writing replaces it and nothing else (R23, R24, D2). -/
def Obligations.RegisterTableNamesTheSlots : Prop :=
  ∀ (r : Regs) (v : Word) (b : Byte),
    [0, 1, 2, 3, 4, 5, 6, 7].map (fun k => regRead .word (.ofCode k) r) =
      [r.ax, r.cx, r.dx, r.bx, r.sp, r.bp, r.si, r.di] ∧
    [0, 1, 2, 3, 4, 5, 6, 7].map (fun k => (regRead .byte (.ofCode k) r).toNat) =
      [r.ax.toNat % 256, r.cx.toNat % 256, r.dx.toNat % 256, r.bx.toNat % 256,
       r.ax.toNat / 256, r.cx.toNat / 256, r.dx.toNat / 256, r.bx.toNat / 256] ∧
    [0, 1, 2, 3, 4, 5, 6, 7].map (fun k => regWrite .word (.ofCode k) v r) =
      [{ r with ax := v }, { r with cx := v }, { r with dx := v }, { r with bx := v },
       { r with sp := v }, { r with bp := v }, { r with si := v }, { r with di := v }] ∧
    [0, 1, 2, 3, 4, 5, 6, 7].map (fun k => regWrite .byte (.ofCode k) b r) =
      [{ r with ax := (r.ax &&& 0xFF00) ||| b.setWidth 16 }, { r with cx := (r.cx &&& 0xFF00) ||| b.setWidth 16 },
       { r with dx := (r.dx &&& 0xFF00) ||| b.setWidth 16 }, { r with bx := (r.bx &&& 0xFF00) ||| b.setWidth 16 },
       { r with ax := (r.ax &&& 0x00FF) ||| (b.setWidth 16 <<< 8) },
       { r with cx := (r.cx &&& 0x00FF) ||| (b.setWidth 16 <<< 8) },
       { r with dx := (r.dx &&& 0x00FF) ||| (b.setWidth 16 <<< 8) },
       { r with bx := (r.bx &&& 0x00FF) ||| (b.setWidth 16 <<< 8) }] ∧
    [0, 1, 2, 3, 4, 5, 6, 7].map (fun k => (regLookup .word (.ofCode k)).name) =
      ["ax", "cx", "dx", "bx", "sp", "bp", "si", "di"] ∧
    [0, 1, 2, 3, 4, 5, 6, 7].map (fun k => (regLookup .byte (.ofCode k)).name) =
      ["al", "cl", "dl", "bl", "ah", "ch", "dh", "bh"]

/-- The first-byte map (30_encoding.md R92, with b1[5:3] of class (f), R81; the bit patterns are the spec's D27): which
instruction each recognised first byte is, for every byte that follows; and six loaded bytes are never cut short. -/
def Obligations.FirstByteMapNamesTheInstruction : Prop :=
  (∀ bs : List Byte, 6 ≤ bs.length → decode bs ≠ .truncated) ∧
  (∀ (b0 b1 : Byte) (rest : List Byte) (i : Instr), decode (b0 :: b1 :: rest) = .instr i →
    (b0 &&& 0xFC = 0x88 → ∃ d w reg rm, i = .movRm d w reg rm) ∧ (b0 &&& 0xFE = 0xC6 → ∃ rm imm, i = .movRmImm rm imm) ∧
    (b0 &&& 0xF0 = 0xB0 → ∃ reg imm, i = .movRegImm reg imm) ∧ (b0 &&& 0xFE = 0xA0 → ∃ w a, i = .movAcc w a) ∧
    (b0 &&& 0xFC = 0x00 → ∃ d w reg rm, i = .addRm d w reg rm) ∧ (b0 &&& 0xFE = 0x04 → ∃ imm, i = .addAcc imm) ∧
    (b0 &&& 0xFC = 0x08 → ∃ d w reg rm, i = .orRm d w reg rm) ∧ (b0 &&& 0xFE = 0x0C → ∃ imm, i = .orAcc imm) ∧
    (b0 &&& 0xFC = 0x10 → ∃ d w reg rm, i = .adcRm d w reg rm) ∧ (b0 &&& 0xFE = 0x14 → ∃ imm, i = .adcAcc imm) ∧
    (b0 &&& 0xFC = 0x18 → ∃ d w reg rm, i = .sbbRm d w reg rm) ∧ (b0 &&& 0xFE = 0x1C → ∃ imm, i = .sbbAcc imm) ∧
    (b0 &&& 0xFC = 0x20 → ∃ d w reg rm, i = .andRm d w reg rm) ∧ (b0 &&& 0xFE = 0x24 → ∃ imm, i = .andAcc imm) ∧
    (b0 &&& 0xFC = 0x28 → ∃ d w reg rm, i = .subRm d w reg rm) ∧ (b0 &&& 0xFE = 0x2C → ∃ imm, i = .subAcc imm) ∧
    (b0 &&& 0xFC = 0x30 → ∃ d w reg rm, i = .xorRm d w reg rm) ∧ (b0 &&& 0xFE = 0x34 → ∃ imm, i = .xorAcc imm) ∧
    (b0 &&& 0xFC = 0x38 → ∃ d w reg rm, i = .cmpRm d w reg rm) ∧ (b0 &&& 0xFE = 0x3C → ∃ imm, i = .cmpAcc imm) ∧
    (b0 &&& 0xFC = 0x80 →
      (b1 &&& 0x38 = 0x00 → ∃ rm imm, i = .addRmImm rm imm) ∧ (b1 &&& 0x38 = 0x08 → ∃ rm imm, i = .orRmImm rm imm) ∧
      (b1 &&& 0x38 = 0x10 → ∃ rm imm, i = .adcRmImm rm imm) ∧ (b1 &&& 0x38 = 0x18 → ∃ rm imm, i = .sbbRmImm rm imm) ∧
      (b1 &&& 0x38 = 0x20 → ∃ rm imm, i = .andRmImm rm imm) ∧ (b1 &&& 0x38 = 0x28 → ∃ rm imm, i = .subRmImm rm imm) ∧
      (b1 &&& 0x38 = 0x30 → ∃ rm imm, i = .xorRmImm rm imm) ∧ (b1 &&& 0x38 = 0x38 → ∃ rm imm, i = .cmpRmImm rm imm))) ∧
  (∀ (d : Byte) (rest : List Byte),
    decode (0x70 :: d :: rest) = .instr (.jo d) ∧ decode (0x71 :: d :: rest) = .instr (.jno d) ∧
    decode (0x72 :: d :: rest) = .instr (.jb d) ∧ decode (0x73 :: d :: rest) = .instr (.jnb d) ∧
    decode (0x74 :: d :: rest) = .instr (.jz d) ∧ decode (0x75 :: d :: rest) = .instr (.jnz d) ∧
    decode (0x76 :: d :: rest) = .instr (.jbe d) ∧ decode (0x77 :: d :: rest) = .instr (.ja d) ∧
    decode (0x78 :: d :: rest) = .instr (.js d) ∧ decode (0x79 :: d :: rest) = .instr (.jns d) ∧
    decode (0x7A :: d :: rest) = .instr (.jp d) ∧ decode (0x7B :: d :: rest) = .instr (.jnp d) ∧
    decode (0x7C :: d :: rest) = .instr (.jl d) ∧ decode (0x7D :: d :: rest) = .instr (.jnl d) ∧
    decode (0x7E :: d :: rest) = .instr (.jle d) ∧ decode (0x7F :: d :: rest) = .instr (.jg d) ∧
    decode (0xE0 :: d :: rest) = .instr (.loopnz d) ∧ decode (0xE1 :: d :: rest) = .instr (.loopz d) ∧
    decode (0xE2 :: d :: rest) = .instr (.loop d) ∧ decode (0xE3 :: d :: rest) = .instr (.jcxz d))

/-- The addressing byte (30_encoding.md R72, R73; 40_operands.md R112, R114; the positions are the spec's D27), seen on
`8B`: the middle field is the register, mod and rm give the operand, and its displacement is the bytes that follow, low
byte first. -/
def Obligations.AddressingByteNamesTheOperands : Prop :=
  ∀ (b1 : Byte) (rest : List Byte) (d : Dir) (w : Width) (reg : RegCode) (rm : Rm),
    decode (0x8B :: b1 :: rest) = .instr (.movRm d w reg rm) →
    d = .toReg ∧ w = .word ∧
    (∀ p ∈ [((0x00 : Byte), RegCode.r0), (0x08, .r1), (0x10, .r2), (0x18, .r3), (0x20, .r4), (0x28, .r5), (0x30, .r6),
        (0x38, .r7)],
      b1 &&& 0x38 = p.1 → reg = p.2) ∧
    (∀ p ∈ [((0xC0 : Byte), RegCode.r0), (0xC1, .r1), (0xC2, .r2), (0xC3, .r3), (0xC4, .r4), (0xC5, .r5), (0xC6, .r6),
        (0xC7, .r7)],
      b1 &&& 0xC7 = p.1 → rm = .reg p.2) ∧
    (∀ p ∈ [((0x00 : Byte), Base.bxSi), (0x01, .bxDi), (0x02, .bpSi), (0x03, .bpDi), (0x04, .si), (0x05, .di),
        (0x07, .bx)],
      b1 &&& 0xC7 = p.1 → rm = .base p.2) ∧
    (b1 &&& 0xC7 = 0x06 → ∃ lo hi more, rest = lo :: hi :: more ∧ rm = .direct (hi ++ lo)) ∧
    (∀ p ∈ [((0x40 : Byte), Base.bxSi), (0x41, .bxDi), (0x42, .bpSi), (0x43, .bpDi), (0x44, .si), (0x45, .di),
        (0x46, .bp), (0x47, .bx)],
      b1 &&& 0xC7 = p.1 → ∃ d8 more, rest = d8 :: more ∧ rm = .disp8 p.2 d8) ∧
    (∀ p ∈ [((0x80 : Byte), Base.bxSi), (0x81, .bxDi), (0x82, .bpSi), (0x83, .bpDi), (0x84, .si), (0x85, .di),
        (0x86, .bp), (0x87, .bx)],
      b1 &&& 0xC7 = p.1 → ∃ lo hi more, rest = lo :: hi :: more ∧ rm = .disp16 p.2 (hi ++ lo))

/-- The aliased encodings (30_encoding.md R87): (3) both encodings of an operation between two registers do the same, but
for the record they leave; (4) class (b) with mod 3 and class (c) both move an immediate to a register, differ by one
byte in length and stand in different rows of R192's table. Both rows hold the field `mov_ri`, which R87 (4) denies: that
R192 is followed there is the model's choice (log entry 19), and no more of R87 (4)'s words on the cost is stated. -/
def Obligations.AliasedEncodingsDoTheSame : Prop :=
  (∀ (w : Width) (x y : RegCode) (s : State), ∀ p ∈
      (.movRm .toRm w x (.reg y), .movRm .toReg w y (.reg x)) ::
      [ArithOp.add, .or, .adc, .sbb, .and, .sub, .xor, .cmp].map fun op =>
        (Record.arithRm op .toRm w x (.reg y), Record.arithRm op .toReg w y (.reg x)),
    ∃ t u, exec p.1.toInstr s = .next t ∧ exec p.2.toInstr s = .next u ∧
      t.regs = u.regs ∧ t.mem = u.mem ∧ FlagsKept u t ∧ t.pc = u.pc ∧ t.cyc = u.cyc) ∧
  (∀ (reg : RegCode) (imm : Imm) (k : Bool) (s : State),
    Record.len (.movRmImm (.reg reg) imm) = Record.len (.movRegImm reg imm) + 1 ∧
    Record.costRow k (.movRmImm (.reg reg) imm) ≠ Record.costRow k (.movRegImm reg imm) ∧
    ∃ t u, exec (.movRmImm (.reg reg) imm) s = .next t ∧ exec (.movRegImm reg imm) s = .next u ∧
      t.regs = u.regs ∧ t.mem = u.mem ∧ FlagsKept u t ∧ t.cyc = u.cyc)
end

