-- ==== Sys2Proof/Laws/Cost.lean ====
section
/-! SUPPORT. The cycle cost of each class of record, as R192 lists it: with a register operand the row's figure, with a
memory operand the memory row's figure and the effective-address component. -/

namespace Sys2Proof

variable (t : CycleTable) (k : Bool)

/-- What has an effective-address component is memory: it takes the memory row. -/
theorem rmRow_of_eaCost? {t : CycleTable} {rm : Rm} {ea : Nat} (h : rm.eaCost? t = some ea) (a b : CostRow) :
    rmRow a b rm = b := by
  cases rm <;> first | rfl | cases h

theorem cost_movRm_reg (d : Dir) (w : Width) (reg c : RegCode) :
    Record.cost t k (.movRm d w reg (.reg c)) = t.movRR := rfl

theorem cost_movRm_mem {t : CycleTable} {rm : Rm} {ea : Nat} (h : rm.eaCost? t = some ea) (d : Dir) (w : Width)
    (reg : RegCode) : Record.cost t k (.movRm d w reg rm) = (dirRow d .aRegMem .aMemReg).figure t + ea := by
  simp [Record.cost, Record.costRow, rmRow_of_eaCost? h, Record.eaCost, Record.rmOperand?, h]

theorem cost_movRmImm_reg (c : RegCode) (imm : Imm) : Record.cost t k (.movRmImm (.reg c) imm) = t.movRI := rfl

theorem cost_movRmImm_mem {t : CycleTable} {rm : Rm} {ea : Nat} (h : rm.eaCost? t = some ea) (imm : Imm) :
    Record.cost t k (.movRmImm rm imm) = t.movMI + ea := by
  simp [Record.cost, Record.costRow, rmRow_of_eaCost? h, Record.eaCost, Record.rmOperand?, h, CostRow.figure]

theorem cost_movRegImm (reg : RegCode) (imm : Imm) : Record.cost t k (.movRegImm reg imm) = t.movRI := rfl

theorem cost_movAcc (w : Width) (a : Word) : Record.cost t k (.movAcc w a) = t.movAM := rfl

theorem cost_arithRm_reg (op : ArithOp) (d : Dir) (w : Width) (reg c : RegCode) :
    Record.cost t k (.arithRm op d w reg (.reg c)) = (CostRow.eRegReg op.costGroup).figure t := rfl

theorem cost_arithRm_mem {t : CycleTable} {rm : Rm} {ea : Nat} (h : rm.eaCost? t = some ea) (op : ArithOp) (d : Dir)
    (w : Width) (reg : RegCode) : Record.cost t k (.arithRm op d w reg rm) =
      (dirRow d (.eRegMem op.costGroup) (.eMemReg op.costGroup)).figure t + ea := by
  simp [Record.cost, Record.costRow, rmRow_of_eaCost? h, Record.eaCost, Record.rmOperand?, h]

theorem cost_arithRmImm_reg (op : ArithOp) (c : RegCode) (imm : ImmS) :
    Record.cost t k (.arithRmImm op (.reg c) imm) = (CostRow.fRegImm op.costGroup).figure t := rfl

theorem cost_arithRmImm_mem {t : CycleTable} {rm : Rm} {ea : Nat} (h : rm.eaCost? t = some ea) (op : ArithOp)
    (imm : ImmS) : Record.cost t k (.arithRmImm op rm imm) = (CostRow.fMemImm op.costGroup).figure t + ea := by
  simp [Record.cost, Record.costRow, rmRow_of_eaCost? h, Record.eaCost, Record.rmOperand?, h]

theorem cost_arithAcc (op : ArithOp) (imm : Imm) :
    Record.cost t k (.arithAcc op imm) = (CostRow.gAccImm op.costGroup).figure t := rfl

theorem cost_jcc (cc : Cond) (d : Byte) :
    Record.cost t k (.jcc cc d) = if k then t.jccTaken else t.jccNotTaken := by
  cases k <;> rfl

theorem cost_loopj (kind : LoopKind) (d : Byte) :
    Record.cost t k (.loopj kind d) = (CostRow.loopNotTaken kind).figure t := rfl

end Sys2Proof
end

