-- ==== Sys2Proof/Laws/Decode.lean ====
section
/-! SUPPORT. The decoder's and encoder's parts are inverse, part by part; and an instruction and its record are the
same thing. -/

namespace Sys2Proof

@[simp] theorem RegCode.ofCode_code (x : RegCode) : RegCode.ofCode x.code = x := by cases x <;> rfl

@[simp] theorem RegCode.code_ofCode : ∀ c : BitVec 3, (RegCode.ofCode c).code = c := by decide

@[simp] theorem Base.ofCode_code (x : Base) : Base.ofCode x.code = x := by cases x <;> rfl

@[simp] theorem Base.code_ofCode : ∀ c : BitVec 3, (Base.ofCode c).code = c := by decide

@[simp] theorem ArithOp.ofCode_code (x : ArithOp) : ArithOp.ofCode x.code = x := by cases x <;> rfl

@[simp] theorem ArithOp.code_ofCode : ∀ c : BitVec 3, (ArithOp.ofCode c).code = c := by decide

@[simp] theorem Cond.ofCode_code (x : Cond) : Cond.ofCode x.code = x := by cases x <;> rfl

@[simp] theorem Cond.code_ofCode : ∀ c : BitVec 4, (Cond.ofCode c).code = c := by decide

@[simp] theorem LoopKind.ofCode_code (x : LoopKind) : LoopKind.ofCode x.code = x := by cases x <;> rfl

@[simp] theorem LoopKind.code_ofCode : ∀ c : BitVec 2, (LoopKind.ofCode c).code = c := by decide

@[simp] theorem Width.ofBit_toBit (w : Width) : Width.ofBit w.toBit = w := by cases w <;> rfl

@[simp] theorem Dir.ofBit_toBit (d : Dir) : Dir.ofBit d.toBit = d := by cases d <;> rfl

@[simp] theorem Record.toInstr_record (r : Record) : r.toInstr.record = r := by
  cases r with
  | arithRm op => cases op <;> rfl
  | arithRmImm op => cases op <;> rfl
  | arithAcc op => cases op <;> rfl
  | jcc cc => cases cc <;> rfl
  | loopj k => cases k <;> rfl
  | _ => rfl

@[simp] theorem Instr.record_toInstr (i : Instr) : i.record.toInstr = i := by cases i <;> rfl

@[simp] theorem Instr.record_wf (i : Instr) : i.record.wf = i.wf := by cases i <;> rfl

/-- The opcode byte of every class classifies as that class with those fields. -/
theorem classify_byte (oc : Opcode) : classify oc.byte = some oc := by
  cases oc with
  | a d w => cases d <;> cases w <;> decide
  | b w => cases w <;> decide
  | c w reg => cases w <;> cases reg <;> decide
  | d w => cases w <;> decide
  | e op d w => cases op <;> cases d <;> cases w <;> decide
  | f s w => cases s <;> cases w <;> decide
  | g op w => cases op <;> cases w <;> decide
  | h cc => cases cc <;> decide
  | i k => cases k <;> decide

/-- A byte that classifies is the opcode byte of its class and fields. -/
theorem byte_of_classify {b0 : Byte} {oc : Opcode} (h : classify b0 = some oc) : oc.byte = b0 := by
  have all : ∀ b : Byte, ∀ x ∈ classify b, x.byte = b := by decide
  exact all b0 oc h

@[simp] theorem takeWord_wordBytes (v : Word) (rest : List Byte) :
    takeWord (wordBytes v ++ rest) = some (v, rest) := by
  simp [wordBytes, takeWord]

theorem takeWord_eq {bs rest : List Byte} {v : Word} (h : takeWord bs = some (v, rest)) :
    bs = wordBytes v ++ rest := by
  match bs, h with
  | lo :: hi :: bs, h =>
    simp only [takeWord, Option.some.injEq, Prod.mk.injEq] at h
    obtain ⟨rfl, rfl⟩ := h
    simp [wordBytes]

theorem takeByte_eq {bs rest : List Byte} {v : Byte} (h : takeByte bs = some (v, rest)) : bs = v :: rest := by
  match bs, h with
  | b :: bs, h =>
    simp only [takeByte, Option.some.injEq, Prod.mk.injEq] at h
    rw [h.1, h.2]

theorem takeImm_encoded (imm : Imm) (rest : List Byte) :
    takeImm imm.width (imm.encoded ++ rest) = some (imm, rest) := by
  cases imm <;> simp [takeImm, Imm.width, Imm.encoded, takeByte]

theorem takeImm_eq {w : Width} {bs rest : List Byte} {imm : Imm} (h : takeImm w bs = some (imm, rest)) :
    imm.width = w ∧ bs = imm.encoded ++ rest := by
  cases w <;> simp only [takeImm, Option.map_eq_some_iff, Prod.exists, Prod.mk.injEq] at h <;>
    obtain ⟨v, r, h, rfl, rfl⟩ := h
  · exact ⟨rfl, takeByte_eq h⟩
  · exact ⟨rfl, takeWord_eq h⟩

theorem takeImmS_encoded (imm : ImmS) (rest : List Byte) :
    takeImmS imm.s imm.assembled.width (imm.encoded ++ rest) = some (imm, rest) := by
  cases imm <;> simp [takeImmS, ImmS.s, ImmS.assembled, Imm.width, ImmS.encoded, takeByte]

theorem takeImmS_eq {s : Bool} {w : Width} {bs rest : List Byte} {imm : ImmS}
    (h : takeImmS s w bs = some (imm, rest)) :
    imm.s = s ∧ imm.assembled.width = w ∧ bs = imm.encoded ++ rest := by
  cases w <;> cases s <;> simp only [takeImmS, Option.map_eq_some_iff, Prod.exists, Prod.mk.injEq] at h <;>
    obtain ⟨v, r, h, rfl, rfl⟩ := h
  · exact ⟨rfl, rfl, takeByte_eq h⟩
  · exact ⟨rfl, rfl, takeByte_eq h⟩
  · exact ⟨rfl, rfl, takeWord_eq h⟩
  · exact ⟨rfl, rfl, takeByte_eq h⟩

/-- An addressing byte put together from its three fields (30_encoding.md R72). -/
def threeFields (md : BitVec 2) (mid rm : BitVec 3) : Byte := md ++ mid ++ rm

theorem threeFields_fields : ∀ md mid rm, (threeFields md mid rm).extractLsb' 0 3 = rm ∧
    (threeFields md mid rm).extractLsb' 3 3 = mid ∧ (threeFields md mid rm).getLsbD 6 = md.getLsbD 0 ∧
    (threeFields md mid rm).getLsbD 7 = md.getLsbD 1 := by
  decide

theorem threeFields_parts : ∀ b : Byte,
    threeFields (bit (b.getLsbD 7) ++ bit (b.getLsbD 6)) (b.extractLsb' 3 3) (b.extractLsb' 0 3) = b := by
  decide

theorem addrByte_eq (mid : BitVec 3) (rm : Rm) : addrByte mid rm = threeFields rm.modCode mid rm.rmCode := rfl

/-- The middle field of an addressing byte is the one put there. -/
theorem addrByte_mid (mid : BitVec 3) (rm : Rm) : (addrByte mid rm).extractLsb' 3 3 = mid := by
  rw [addrByte_eq]
  exact (threeFields_fields _ _ _).2.1

/-- The r/m operand of an addressing byte and its displacement bytes is the one encoded there. -/
theorem takeRm_encoded (mid : BitVec 3) {rm : Rm} (hwf : rm.wf = true) (rest : List Byte) :
    takeRm (addrByte mid rm) (rm.dispBytes ++ rest) = some (rm, rest) := by
  obtain ⟨h0, -, h6, h7⟩ := threeFields_fields rm.modCode mid rm.rmCode
  rw [addrByte_eq, takeRm, h0, h6, h7]
  cases rm with
  | reg c => simp [Rm.modCode, Rm.rmCode, Rm.dispBytes]
  | base b =>
    have hb : b ≠ .bp := by rintro rfl; cases hwf
    simp [Rm.modCode, Rm.rmCode, Rm.dispBytes, hb]
  | direct a =>
    have h : Base.ofCode 6#3 = .bp := rfl
    simp [Rm.modCode, Rm.rmCode, Rm.dispBytes, h]
  | disp8 b d => simp [Rm.modCode, Rm.rmCode, Rm.dispBytes, takeByte]
  | disp16 b d => simp [Rm.modCode, Rm.rmCode, Rm.dispBytes]

/-- What `takeRm` reads is a well-formed operand, and its bytes are that operand's encoding. -/
theorem takeRm_eq {b1 : Byte} {bs rest : List Byte} {rm : Rm} (h : takeRm b1 bs = some (rm, rest)) :
    rm.wf = true ∧ addrByte (b1.extractLsb' 3 3) rm = b1 ∧ bs = rm.dispBytes ++ rest := by
  have hparts := threeFields_parts b1
  rw [takeRm] at h
  rw [addrByte_eq]
  generalize b1.getLsbD 7 = x7 at h hparts
  generalize b1.getLsbD 6 = x6 at h hparts
  generalize b1.extractLsb' 0 3 = rmc at h hparts
  generalize b1.extractLsb' 3 3 = mid at hparts ⊢
  subst hparts
  cases x7 <;> cases x6 <;> simp only [Option.map_eq_some_iff, Prod.exists, Prod.mk.injEq, Option.some.injEq] at h
  · split at h
    case isTrue hbp =>
      simp only [Option.map_eq_some_iff, Prod.exists, Prod.mk.injEq] at h
      obtain ⟨a, r, h, rfl, rfl⟩ := h
      have hrm : rmc = 6 := by rw [← Base.code_ofCode rmc, hbp]; rfl
      exact ⟨rfl, by rw [hrm]; rfl, takeWord_eq h⟩
    case isFalse hbp =>
      simp only [Option.some.injEq, Prod.mk.injEq] at h
      obtain ⟨rfl, rfl⟩ := h
      refine ⟨?_, by simp [Rm.modCode, Rm.rmCode, bit], rfl⟩
      cases hb : Base.ofCode rmc <;> first | rfl | exact absurd hb hbp
  · obtain ⟨d, r, h, rfl, rfl⟩ := h
    exact ⟨rfl, by simp [Rm.modCode, Rm.rmCode, bit], takeByte_eq h⟩
  · obtain ⟨d, r, h, rfl, rfl⟩ := h
    exact ⟨rfl, by simp [Rm.modCode, Rm.rmCode, bit], takeWord_eq h⟩
  · obtain ⟨rfl, rfl⟩ := h
    exact ⟨rfl, by simp [Rm.modCode, Rm.rmCode, bit], rfl⟩

theorem Rm.dispBytes_length (rm : Rm) : rm.dispBytes.length = rm.dispLen := by cases rm <;> rfl

theorem Imm.encoded_length (imm : Imm) : imm.encoded.length = imm.len := by cases imm <;> rfl

theorem ImmS.encoded_length (imm : ImmS) : imm.encoded.length = imm.len := by cases imm <;> rfl

/-- The encoder writes as many bytes as R89 says. -/
theorem Record.encoded_length (r : Record) : r.encoded.length = r.len := by
  cases r <;> simp [Record.encoded, Record.len, Rm.dispBytes_length, Imm.encoded_length, ImmS.encoded_length,
    wordBytes] <;> omega

/-- Every instruction is 2 to 6 bytes long (R70). -/
theorem Record.len_bounds (r : Record) : 2 ≤ r.len ∧ r.len ≤ Config.maxInstrLen := by
  cases r with
  | movRm d w reg rm => cases rm <;> simp [Record.len, Rm.dispLen, Config.maxInstrLen]
  | movRmImm rm imm => cases rm <;> cases imm <;> simp [Record.len, Rm.dispLen, Imm.len, Config.maxInstrLen]
  | movRegImm reg imm => cases imm <;> simp [Record.len, Imm.len, Config.maxInstrLen]
  | movAcc w addr => simp [Record.len, Config.maxInstrLen]
  | arithRm op d w reg rm => cases rm <;> simp [Record.len, Rm.dispLen, Config.maxInstrLen]
  | arithRmImm op rm imm => cases rm <;> cases imm <;> simp [Record.len, Rm.dispLen, ImmS.len, Config.maxInstrLen]
  | arithAcc op imm => cases imm <;> simp [Record.len, Imm.len, Config.maxInstrLen]
  | jcc cc d => simp [Record.len, Config.maxInstrLen]
  | loopj k d => simp [Record.len, Config.maxInstrLen]

end Sys2Proof
end

