-- ==== Sys2Proof/Laws/State.lean ====
section
/-! SUPPORT. One lemma per field per named update of the state, each true by rfl, so that no proof unfolds a record
update; and the same for LEN. -/

namespace Sys2Proof.Machine

@[simp] theorem State.withRegs_regs (s : State) (r : Regs) : (s.withRegs r).regs = r := rfl
@[simp] theorem State.withRegs_pc (s : State) (r : Regs) : (s.withRegs r).pc = s.pc := rfl
@[simp] theorem State.withRegs_sf (s : State) (r : Regs) : (s.withRegs r).sf = s.sf := rfl
@[simp] theorem State.withRegs_zf (s : State) (r : Regs) : (s.withRegs r).zf = s.zf := rfl
@[simp] theorem State.withRegs_cyc (s : State) (r : Regs) : (s.withRegs r).cyc = s.cyc := rfl
@[simp] theorem State.withRegs_mem (s : State) (r : Regs) : (s.withRegs r).mem = s.mem := rfl
@[simp] theorem State.withRegs_st (s : State) (r : Regs) : (s.withRegs r).st = s.st := rfl
@[simp] theorem State.withRegs_cause (s : State) (r : Regs) : (s.withRegs r).cause = s.cause := rfl
@[simp] theorem State.withRegs_ibuf (s : State) (r : Regs) : (s.withRegs r).ibuf = s.ibuf := rfl
@[simp] theorem State.withRegs_cycles (s : State) (r : Regs) : (s.withRegs r).cycles = s.cycles := rfl
@[simp] theorem State.withRegs_trace (s : State) (r : Regs) : (s.withRegs r).trace = s.trace := rfl
@[simp] theorem State.withRegs_len (s : State) (r : Regs) : (s.withRegs r).len = s.len := rfl

@[simp] theorem State.withMem_regs (s : State) (m : Memory) : (s.withMem m).regs = s.regs := rfl
@[simp] theorem State.withMem_pc (s : State) (m : Memory) : (s.withMem m).pc = s.pc := rfl
@[simp] theorem State.withMem_sf (s : State) (m : Memory) : (s.withMem m).sf = s.sf := rfl
@[simp] theorem State.withMem_zf (s : State) (m : Memory) : (s.withMem m).zf = s.zf := rfl
@[simp] theorem State.withMem_cyc (s : State) (m : Memory) : (s.withMem m).cyc = s.cyc := rfl
@[simp] theorem State.withMem_mem (s : State) (m : Memory) : (s.withMem m).mem = m := rfl
@[simp] theorem State.withMem_st (s : State) (m : Memory) : (s.withMem m).st = s.st := rfl
@[simp] theorem State.withMem_cause (s : State) (m : Memory) : (s.withMem m).cause = s.cause := rfl
@[simp] theorem State.withMem_ibuf (s : State) (m : Memory) : (s.withMem m).ibuf = s.ibuf := rfl
@[simp] theorem State.withMem_cycles (s : State) (m : Memory) : (s.withMem m).cycles = s.cycles := rfl
@[simp] theorem State.withMem_trace (s : State) (m : Memory) : (s.withMem m).trace = s.trace := rfl
@[simp] theorem State.withMem_len (s : State) (m : Memory) : (s.withMem m).len = s.len := rfl

@[simp] theorem State.withFlags_regs (s : State) (a b : Bool) : (s.withFlags a b).regs = s.regs := rfl
@[simp] theorem State.withFlags_pc (s : State) (a b : Bool) : (s.withFlags a b).pc = s.pc := rfl
@[simp] theorem State.withFlags_sf (s : State) (a b : Bool) : (s.withFlags a b).sf = a := rfl
@[simp] theorem State.withFlags_zf (s : State) (a b : Bool) : (s.withFlags a b).zf = b := rfl
@[simp] theorem State.withFlags_cyc (s : State) (a b : Bool) : (s.withFlags a b).cyc = s.cyc := rfl
@[simp] theorem State.withFlags_mem (s : State) (a b : Bool) : (s.withFlags a b).mem = s.mem := rfl
@[simp] theorem State.withFlags_st (s : State) (a b : Bool) : (s.withFlags a b).st = s.st := rfl
@[simp] theorem State.withFlags_cause (s : State) (a b : Bool) : (s.withFlags a b).cause = s.cause := rfl
@[simp] theorem State.withFlags_ibuf (s : State) (a b : Bool) : (s.withFlags a b).ibuf = s.ibuf := rfl
@[simp] theorem State.withFlags_cycles (s : State) (a b : Bool) : (s.withFlags a b).cycles = s.cycles := rfl
@[simp] theorem State.withFlags_trace (s : State) (a b : Bool) : (s.withFlags a b).trace = s.trace := rfl
@[simp] theorem State.withFlags_len (s : State) (a b : Bool) : (s.withFlags a b).len = s.len := rfl

@[simp] theorem State.withPc_regs (s : State) (v : Word) : (s.withPc v).regs = s.regs := rfl
@[simp] theorem State.withPc_pc (s : State) (v : Word) : (s.withPc v).pc = v := rfl
@[simp] theorem State.withPc_sf (s : State) (v : Word) : (s.withPc v).sf = s.sf := rfl
@[simp] theorem State.withPc_zf (s : State) (v : Word) : (s.withPc v).zf = s.zf := rfl
@[simp] theorem State.withPc_cyc (s : State) (v : Word) : (s.withPc v).cyc = s.cyc := rfl
@[simp] theorem State.withPc_mem (s : State) (v : Word) : (s.withPc v).mem = s.mem := rfl
@[simp] theorem State.withPc_st (s : State) (v : Word) : (s.withPc v).st = s.st := rfl
@[simp] theorem State.withPc_cause (s : State) (v : Word) : (s.withPc v).cause = s.cause := rfl
@[simp] theorem State.withPc_ibuf (s : State) (v : Word) : (s.withPc v).ibuf = s.ibuf := rfl
@[simp] theorem State.withPc_cycles (s : State) (v : Word) : (s.withPc v).cycles = s.cycles := rfl
@[simp] theorem State.withPc_trace (s : State) (v : Word) : (s.withPc v).trace = s.trace := rfl
@[simp] theorem State.withPc_len (s : State) (v : Word) : (s.withPc v).len = s.len := rfl

@[simp] theorem State.addCycles_regs (s : State) (n : Nat) : (s.addCycles n).regs = s.regs := rfl
@[simp] theorem State.addCycles_pc (s : State) (n : Nat) : (s.addCycles n).pc = s.pc := rfl
@[simp] theorem State.addCycles_sf (s : State) (n : Nat) : (s.addCycles n).sf = s.sf := rfl
@[simp] theorem State.addCycles_zf (s : State) (n : Nat) : (s.addCycles n).zf = s.zf := rfl
@[simp] theorem State.addCycles_cyc (s : State) (n : Nat) : (s.addCycles n).cyc = s.cyc + n := rfl
@[simp] theorem State.addCycles_mem (s : State) (n : Nat) : (s.addCycles n).mem = s.mem := rfl
@[simp] theorem State.addCycles_st (s : State) (n : Nat) : (s.addCycles n).st = s.st := rfl
@[simp] theorem State.addCycles_cause (s : State) (n : Nat) : (s.addCycles n).cause = s.cause := rfl
@[simp] theorem State.addCycles_ibuf (s : State) (n : Nat) : (s.addCycles n).ibuf = s.ibuf := rfl
@[simp] theorem State.addCycles_cycles (s : State) (n : Nat) : (s.addCycles n).cycles = s.cycles := rfl
@[simp] theorem State.addCycles_trace (s : State) (n : Nat) : (s.addCycles n).trace = s.trace := rfl
@[simp] theorem State.addCycles_len (s : State) (n : Nat) : (s.addCycles n).len = s.len := rfl

@[simp] theorem State.emit_regs (s : State) (r : TraceRecord) : (s.emit r).regs = s.regs := rfl
@[simp] theorem State.emit_pc (s : State) (r : TraceRecord) : (s.emit r).pc = s.pc := rfl
@[simp] theorem State.emit_sf (s : State) (r : TraceRecord) : (s.emit r).sf = s.sf := rfl
@[simp] theorem State.emit_zf (s : State) (r : TraceRecord) : (s.emit r).zf = s.zf := rfl
@[simp] theorem State.emit_cyc (s : State) (r : TraceRecord) : (s.emit r).cyc = s.cyc := rfl
@[simp] theorem State.emit_mem (s : State) (r : TraceRecord) : (s.emit r).mem = s.mem := rfl
@[simp] theorem State.emit_st (s : State) (r : TraceRecord) : (s.emit r).st = s.st := rfl
@[simp] theorem State.emit_cause (s : State) (r : TraceRecord) : (s.emit r).cause = s.cause := rfl
@[simp] theorem State.emit_ibuf (s : State) (r : TraceRecord) : (s.emit r).ibuf = s.ibuf := rfl
@[simp] theorem State.emit_cycles (s : State) (r : TraceRecord) : (s.emit r).cycles = s.cycles := rfl
@[simp] theorem State.emit_trace (s : State) (r : TraceRecord) : (s.emit r).trace = s.trace ++ [r] := rfl
@[simp] theorem State.emit_len (s : State) (r : TraceRecord) : (s.emit r).len = s.len := rfl

@[simp] theorem State.withStatus_regs (s : State) (x : RunStatus) (c : Option FatalEvent) : (s.withStatus x c).regs = s.regs := rfl
@[simp] theorem State.withStatus_pc (s : State) (x : RunStatus) (c : Option FatalEvent) : (s.withStatus x c).pc = s.pc := rfl
@[simp] theorem State.withStatus_sf (s : State) (x : RunStatus) (c : Option FatalEvent) : (s.withStatus x c).sf = s.sf := rfl
@[simp] theorem State.withStatus_zf (s : State) (x : RunStatus) (c : Option FatalEvent) : (s.withStatus x c).zf = s.zf := rfl
@[simp] theorem State.withStatus_cyc (s : State) (x : RunStatus) (c : Option FatalEvent) : (s.withStatus x c).cyc = s.cyc := rfl
@[simp] theorem State.withStatus_mem (s : State) (x : RunStatus) (c : Option FatalEvent) : (s.withStatus x c).mem = s.mem := rfl
@[simp] theorem State.withStatus_st (s : State) (x : RunStatus) (c : Option FatalEvent) : (s.withStatus x c).st = x := rfl
@[simp] theorem State.withStatus_cause (s : State) (x : RunStatus) (c : Option FatalEvent) : (s.withStatus x c).cause = c := rfl
@[simp] theorem State.withStatus_ibuf (s : State) (x : RunStatus) (c : Option FatalEvent) : (s.withStatus x c).ibuf = s.ibuf := rfl
@[simp] theorem State.withStatus_cycles (s : State) (x : RunStatus) (c : Option FatalEvent) : (s.withStatus x c).cycles = s.cycles := rfl
@[simp] theorem State.withStatus_trace (s : State) (x : RunStatus) (c : Option FatalEvent) : (s.withStatus x c).trace = s.trace := rfl
@[simp] theorem State.withStatus_len (s : State) (x : RunStatus) (c : Option FatalEvent) : (s.withStatus x c).len = s.len := rfl

@[simp] theorem State.load_regs (s : State) (p : List Byte) : (s.load p).regs = s.regs := rfl
@[simp] theorem State.load_pc (s : State) (p : List Byte) : (s.load p).pc = s.pc := rfl
@[simp] theorem State.load_sf (s : State) (p : List Byte) : (s.load p).sf = s.sf := rfl
@[simp] theorem State.load_zf (s : State) (p : List Byte) : (s.load p).zf = s.zf := rfl
@[simp] theorem State.load_cyc (s : State) (p : List Byte) : (s.load p).cyc = s.cyc := rfl
@[simp] theorem State.load_mem (s : State) (p : List Byte) : (s.load p).mem = s.mem := rfl
@[simp] theorem State.load_st (s : State) (p : List Byte) : (s.load p).st = s.st := rfl
@[simp] theorem State.load_cause (s : State) (p : List Byte) : (s.load p).cause = s.cause := rfl
@[simp] theorem State.load_ibuf (s : State) (p : List Byte) : (s.load p).ibuf = p := rfl
@[simp] theorem State.load_cycles (s : State) (p : List Byte) : (s.load p).cycles = s.cycles := rfl
@[simp] theorem State.load_trace (s : State) (p : List Byte) : (s.load p).trace = s.trace := rfl
@[simp] theorem State.load_len (s : State) (p : List Byte) : (s.load p).len = p.length := rfl

@[simp] theorem State.emitDump_regs (s : State) : s.emitDump.regs = s.regs := rfl
@[simp] theorem State.emitDump_pc (s : State) : s.emitDump.pc = s.pc := rfl
@[simp] theorem State.emitDump_sf (s : State) : s.emitDump.sf = s.sf := rfl
@[simp] theorem State.emitDump_zf (s : State) : s.emitDump.zf = s.zf := rfl
@[simp] theorem State.emitDump_cyc (s : State) : s.emitDump.cyc = s.cyc := rfl
@[simp] theorem State.emitDump_mem (s : State) : s.emitDump.mem = s.mem := rfl
@[simp] theorem State.emitDump_st (s : State) : s.emitDump.st = s.st := rfl
@[simp] theorem State.emitDump_cause (s : State) : s.emitDump.cause = s.cause := rfl
@[simp] theorem State.emitDump_ibuf (s : State) : s.emitDump.ibuf = s.ibuf := rfl
@[simp] theorem State.emitDump_cycles (s : State) : s.emitDump.cycles = s.cycles := rfl
@[simp] theorem State.emitDump_trace (s : State) : s.emitDump.trace = s.trace ++ [.dump s.dumpNow] := rfl
@[simp] theorem State.emitDump_len (s : State) : s.emitDump.len = s.len := rfl

end Sys2Proof.Machine
end

