-- ==== Sys2Proof/Laws/Memory.lean ====
section
/-! SUPPORT. The laws of data memory: read after write, the canonical form kept by every operation, and canonical
memories equal when every byte is. -/

namespace Sys2Proof.Machine

theorem Memory.read_eq_unwritten_of_absent {m : Memory} {a : Nat} (h : ∀ c ∈ m, c.1 ≠ a) :
    m.read a = Memory.unwritten := by
  induction m with
  | nil => rfl
  | cons c m ih =>
    obtain ⟨k, v⟩ := c
    have hk : k ≠ a := h (k, v) (by simp)
    simpa [Memory.read, hk] using ih fun c hc => h c (by simp [hc])

theorem Memory.read_filter_ne {m : Memory} {a b : Nat} (h : b ≠ a) :
    Memory.read (m.filter fun c => c.1 ≠ a) b = m.read b := by
  induction m with
  | nil => rfl
  | cons c m ih =>
    obtain ⟨k, v⟩ := c
    by_cases hk : k = a
    · subst hk
      simpa [Memory.read, h.symm] using ih
    · simp only [List.filter_cons, ne_eq, hk, not_false_eq_true, decide_true, if_true, Memory.read]
      split
      · rfl
      · simpa using ih

theorem Memory.read_place {m : Memory} {a : Nat} {v : Byte} (h : ∀ c ∈ m, c.1 ≠ a) (b : Nat) :
    (Memory.place a v m).read b = if a = b then v else m.read b := by
  induction m with
  | nil => rfl
  | cons c m ih =>
    obtain ⟨k, x⟩ := c
    have hk : k ≠ a := h (k, x) (by simp)
    have ih := ih fun c hc => h c (by simp [hc])
    by_cases hlt : a < k
    · simp [Memory.place, hlt, Memory.read]
    · simp only [Memory.place, hlt, if_false, Memory.read, ih]
      split_ifs <;> first | rfl | omega

/-- Read after write: the written byte at its address, the old byte everywhere else. -/
theorem Memory.read_write (m : Memory) (a b : Nat) (v : Byte) :
    (m.write a v).read b = if a = b then v else m.read b := by
  have habs : ∀ c ∈ m.filter fun c => decide (c.1 ≠ a), c.1 ≠ a := fun c hc => by
    simpa using (List.mem_filter.mp hc).2
  unfold Memory.write
  split
  case isTrue hv =>
    split_ifs with hab
    · subst hab
      rw [Memory.read_eq_unwritten_of_absent habs, hv]
    · exact Memory.read_filter_ne (Ne.symm hab)
  case isFalse hv =>
    rw [Memory.read_place habs]
    split_ifs with hab
    · rfl
    · exact Memory.read_filter_ne (Ne.symm hab)

@[simp] theorem Memory.read_write_same (m : Memory) (a : Nat) (v : Byte) : (m.write a v).read a = v := by
  simp [Memory.read_write]

theorem Memory.read_write_other (m : Memory) {a b : Nat} (v : Byte) (h : a ≠ b) :
    (m.write a v).read b = m.read b := by
  simp [Memory.read_write, h]

theorem Memory.mem_place {m : Memory} {a : Nat} {v : Byte} {c : Host.Cell} (h : c ∈ Memory.place a v m) :
    c = (a, v) ∨ c ∈ m := by
  induction m with
  | nil => simpa [Memory.place] using h
  | cons x m ih =>
    obtain ⟨k, y⟩ := x
    simp only [Memory.place] at h
    split at h
    · simpa using h
    · rcases List.mem_cons.mp h with h | h
      · simp [h]
      · rcases ih h with h | h <;> simp [h]

theorem Memory.place_sorted {m : Memory} {a : Nat} {v : Byte} (hs : m.Pairwise fun x y => x.1 < y.1)
    (h : ∀ c ∈ m, c.1 ≠ a) : (Memory.place a v m).Pairwise fun x y => x.1 < y.1 := by
  induction m with
  | nil => simp [Memory.place]
  | cons x m ih =>
    obtain ⟨k, y⟩ := x
    have hk : k ≠ a := h (k, y) (by simp)
    rw [List.pairwise_cons] at hs
    simp only [Memory.place]
    split
    case isTrue hlt =>
      refine List.pairwise_cons.mpr ⟨fun c hc => ?_, List.pairwise_cons.mpr hs⟩
      rcases List.mem_cons.mp hc with rfl | hc
      · exact hlt
      · exact lt_trans hlt (hs.1 c hc)
    case isFalse hlt =>
      refine List.pairwise_cons.mpr ⟨fun c hc => ?_, ih hs.2 fun c hc => h c (by simp [hc])⟩
      rcases Memory.mem_place hc with rfl | hc
      · show k < a
        omega
      · exact hs.1 c hc

/-- Writing one byte inside MEM keeps the canonical form. -/
theorem Memory.write_wf {m : Memory} (hm : m.wf) {a : Nat} (ha : a < Config.memSize) (v : Byte) :
    (m.write a v).wf := by
  obtain ⟨hs, hc⟩ := hm
  have hfs := hs.filter fun c => decide (c.1 ≠ a)
  have hfc : ∀ c ∈ m.filter fun c => decide (c.1 ≠ a), c.1 < Config.memSize ∧ c.2 ≠ Memory.unwritten :=
    fun c h => hc c (List.mem_filter.mp h).1
  unfold Memory.write
  split
  case isTrue => exact ⟨hfs, hfc⟩
  case isFalse hv =>
    refine ⟨Memory.place_sorted hfs fun c h => by simpa using (List.mem_filter.mp h).2, fun c h => ?_⟩
    rcases Memory.mem_place h with rfl | h
    · exact ⟨ha, hv⟩
    · exact hfc c h

theorem Word.toNat_lt_memSize (a : Word) : a.toNat < Config.memSize := a.isLt

/-- A store of either width keeps the canonical form. -/
theorem memWrite_wf {m : Memory} (hm : m.wf) (w : Width) (a : Word) (v : BitVec w.bits) : (memWrite w a v m).wf := by
  cases w with
  | byte => exact Memory.write_wf hm (Word.toNat_lt_memSize a) v
  | word =>
    exact Memory.write_wf (Memory.write_wf hm (Word.toNat_lt_memSize a) _) (Word.toNat_lt_memSize _) _

/-- The memory after reset is canonical. -/
theorem State.reset_mem_wf : State.reset.mem.wf := by decide

theorem Memory.read_head_lt {k : Nat} {m : Memory} (h : ∀ c ∈ m, k < c.1) {a : Nat} (ha : a ≤ k) :
    Memory.read m a = Memory.unwritten :=
  Memory.read_eq_unwritten_of_absent fun c hc => by have := h c hc; omega

/-- Canonical memories that agree on every byte are equal data. -/
theorem Memory.ext_of_wf {m n : Memory} (hm : m.wf) (hn : n.wf) (h : ∀ a, m.read a = n.read a) : m = n := by
  induction m generalizing n with
  | nil =>
    cases n with
    | nil => rfl
    | cons c n =>
      obtain ⟨k, v⟩ := c
      exact absurd (h k).symm (by simpa [Memory.read] using (hn.2 (k, v) (by simp)).2)
  | cons c m ih =>
    obtain ⟨k, v⟩ := c
    obtain ⟨hms, hmc⟩ := hm
    rw [List.pairwise_cons] at hms
    have hv : v ≠ Memory.unwritten := (hmc (k, v) (by simp)).2
    cases n with
    | nil => exact absurd (h k) (by simpa [Memory.read] using hv)
    | cons d n =>
      obtain ⟨l, u⟩ := d
      obtain ⟨hns, hnc⟩ := hn
      rw [List.pairwise_cons] at hns
      have hu : u ≠ Memory.unwritten := (hnc (l, u) (by simp)).2
      have hk := h k
      have hl := h l
      have hkl : k = l := by
        by_contra hne
        rcases Nat.lt_or_gt_of_ne hne with hlt | hlt
        · rw [Memory.read, if_pos rfl, Memory.read, if_neg (Ne.symm hne),
            Memory.read_head_lt hns.1 hlt.le] at hk
          exact hv hk
        · rw [Memory.read, if_neg hne, Memory.read_head_lt hms.1 hlt.le, Memory.read, if_pos rfl] at hl
          exact hu hl.symm
      subst hkl
      have hvu : v = u := by simpa [Memory.read] using hk
      subst hvu
      congr 1
      refine ih ⟨hms.2, fun c hc => hmc c (by simp [hc])⟩ ⟨hns.2, fun c hc => hnc c (by simp [hc])⟩ fun a => ?_
      by_cases ha : k = a
      · subst ha
        rw [Memory.read_head_lt hms.1 le_rfl, Memory.read_head_lt hns.1 le_rfl]
      · simpa [Memory.read, ha] using h a

/-- The bytes a store of width `w` at `a` touches: `a`, and at word width `a + 1` modulo 65536 (20_memory.md R57). -/
theorem memWrite_read_other {w : Width} {a : Word} {v : BitVec w.bits} {m : Memory} {b : Nat} (h0 : b ≠ a.toNat)
    (h1 : w = .word → b ≠ (a + 1).toNat) : (memWrite w a v m).read b = m.read b := by
  cases w with
  | byte => exact Memory.read_write_other _ _ h0.symm
  | word =>
    show ((m.write a.toNat _).write (a + 1).toNat _).read b = _
    rw [Memory.read_write_other _ _ (h1 rfl).symm, Memory.read_write_other _ _ h0.symm]

theorem Word.succ_toNat_ne (a : Word) : a.toNat ≠ (a + 1).toNat := by bv_omega

/-- A load of the width and at the address of a store gives the stored value. -/
theorem memRead_memWrite_same (w : Width) (a : Word) (v : BitVec w.bits) (m : Memory) :
    memRead w a (memWrite w a v m) = v := by
  cases w with
  | byte => exact Memory.read_write_same _ _ _
  | word =>
    show joinBytes (((m.write a.toNat _).write (a + 1).toNat _).read (a + 1).toNat)
      (((m.write a.toNat _).write (a + 1).toNat _).read a.toNat) = v
    rw [Memory.read_write_same, Memory.read_write_other _ _ (Word.succ_toNat_ne a).symm, Memory.read_write_same]
    exact joinBytes_parts v

end Sys2Proof.Machine
end

