-- ==== Sys2Proof/Laws/Ops.lean ====
section
/-! SUPPORT. What each shared operation does and what it leaves alone, one lemma each: registers, places, the
arithmetic unit, the end of an instruction, fatal events and the end test. -/

namespace Sys2Proof.Machine

/-! ## Registers -/

theorem Regs.get_set (r : Regs) (i j : Slot) (v : Word) : (r.set i v).get j = if i = j then v else r.get j := by
  cases i <;> cases j <;> rfl

@[simp] theorem Regs.get_set_same (r : Regs) (i : Slot) (v : Word) : (r.set i v).get i = v := by
  simp [Regs.get_set]

@[simp] theorem Half.read_write_same (h : Half) (v : Word) (b : Byte) : h.read (h.write v b) = b := by
  cases h <;> simp [Half.read, Half.write]

theorem Half.read_write_other {h k : Half} (hk : h ≠ k) (v : Word) (b : Byte) : k.read (h.write v b) = k.read v := by
  cases h <;> cases k <;> first | exact absurd rfl hk | simp [Half.read, Half.write]

/-- Register files that agree on every slot are equal. -/
theorem Regs.ext_get {r q : Regs} (h : ∀ i, r.get i = q.get i) : r = q := by
  cases r
  cases q
  have h0 := h .ax
  have h1 := h .cx
  have h2 := h .dx
  have h3 := h .bx
  have h4 := h .sp
  have h5 := h .bp
  have h6 := h .si
  have h7 := h .di
  simp only [Regs.get] at *
  subst_vars
  rfl

/-- A register reads back what was written to it (R23, R24). -/
@[simp] theorem regRead_regWrite_same (w : Width) (c : RegCode) (v : BitVec w.bits) (r : Regs) :
    regRead w c (regWrite w c v r) = v := by
  cases w <;> simp [regRead, regWrite]

/-- A register write changes no slot but the one its code names (R24). -/
theorem regWrite_get_other {w : Width} {c : RegCode} {i : Slot} (h : (regLookup w c).index ≠ i) (v : BitVec w.bits)
    (r : Regs) : (regWrite w c v r).get i = r.get i := by
  cases w <;> simp [regWrite, Regs.get_set, h]

/-- A byte write leaves the other half of its slot as it was (R24). -/
theorem regWrite_byte_other_half (c : RegCode) (v : Byte) (r : Regs) {k : Half} (h : byteHalf c ≠ k) :
    k.read ((regWrite .byte c v r).get (regLookup .byte c).index) = k.read (r.get (regLookup .byte c).index) := by
  show k.read ((r.set _ _).get _) = _
  rw [Regs.get_set_same, Half.read_write_other h]

/-! ## Places -/

/-- Everything but registers, memory and flags is the same: what the effect of an instruction leaves to `retire`. -/
structure SameControl (s t : State) : Prop where
  pc     : t.pc = s.pc
  cyc    : t.cyc = s.cyc
  st     : t.st = s.st
  cause  : t.cause = s.cause
  ibuf   : t.ibuf = s.ibuf
  cycles : t.cycles = s.cycles
  trace  : t.trace = s.trace

theorem SameControl.refl (s : State) : SameControl s s := ⟨rfl, rfl, rfl, rfl, rfl, rfl, rfl⟩

theorem writePlace_sameControl (w : Width) (p : Place) (v : BitVec w.bits) (s : State) :
    SameControl s (writePlace w p v s) := by
  cases p <;> exact ⟨rfl, rfl, rfl, rfl, rfl, rfl, rfl⟩

@[simp] theorem writePlace_pc (w : Width) (p : Place) (v : BitVec w.bits) (s : State) :
    (writePlace w p v s).pc = s.pc := (writePlace_sameControl w p v s).pc

@[simp] theorem writePlace_sf (w : Width) (p : Place) (v : BitVec w.bits) (s : State) :
    (writePlace w p v s).sf = s.sf := by cases p <;> rfl

@[simp] theorem writePlace_zf (w : Width) (p : Place) (v : BitVec w.bits) (s : State) :
    (writePlace w p v s).zf = s.zf := by cases p <;> rfl

@[simp] theorem writePlace_reg_mem (w : Width) (c : RegCode) (v : BitVec w.bits) (s : State) :
    (writePlace w (.reg c) v s).mem = s.mem := rfl

@[simp] theorem writePlace_reg_regs (w : Width) (c : RegCode) (v : BitVec w.bits) (s : State) :
    (writePlace w (.reg c) v s).regs = regWrite w c v s.regs := rfl

@[simp] theorem writePlace_mem_regs (w : Width) (a : Word) (v : BitVec w.bits) (s : State) :
    (writePlace w (.mem a) v s).regs = s.regs := rfl

@[simp] theorem writePlace_mem_mem (w : Width) (a : Word) (v : BitVec w.bits) (s : State) :
    (writePlace w (.mem a) v s).mem = memWrite w a v s.mem := rfl

/-- A place reads back what was written to it (R117). -/
@[simp] theorem readPlace_writePlace_same (w : Width) (p : Place) (v : BitVec w.bits) (s : State) :
    readPlace w p (writePlace w p v s) = v := by
  cases p with
  | reg c => exact regRead_regWrite_same w c v s.regs
  | mem a => exact memRead_memWrite_same w a v s.mem

/-- Reading a place looks at registers and memory only. -/
theorem readPlace_congr {s t : State} (w : Width) (p : Place) (hr : t.regs = s.regs) (hm : t.mem = s.mem) :
    readPlace w p t = readPlace w p s := by
  cases p <;> simp [readPlace, hr, hm]

theorem writePlace_mem_wf {s : State} (h : s.mem.wf) (w : Width) (p : Place) (v : BitVec w.bits) :
    (writePlace w p v s).mem.wf := by
  cases p with
  | reg c => exact h
  | mem a => exact memWrite_wf h w a v

/-! ## The arithmetic unit -/

theorem executeArith_sameControl (op : AluOp) {w : Width} (dst : Place) (src : Operand w) (s : State) :
    SameControl s (executeArith op dst src s) := by
  cases op <;> cases dst <;> exact ⟨rfl, rfl, rfl, rfl, rfl, rfl, rfl⟩

/-- Both flags come from the result, of all three operations (R141, R145). -/
theorem executeArith_flags (op : AluOp) {w : Width} (dst : Place) (src : Operand w) (s : State) :
    (executeArith op dst src s).sf = signOf (alu op (readPlace w dst s) (readOperand src s)) ∧
    (executeArith op dst src s).zf = zeroOf (alu op (readPlace w dst s) (readOperand src s)) := by
  cases op <;> exact ⟨rfl, rfl⟩

/-- ADD and SUB write the result to the destination (R145). -/
theorem executeArith_writes {op : AluOp} (h : op.writesBack = true) {w : Width} (dst : Place) (src : Operand w)
    (s : State) : (executeArith op dst src s).regs = (writePlace w dst (alu op (readPlace w dst s)
      (readOperand src s)) s).regs ∧ (executeArith op dst src s).mem = (writePlace w dst (alu op
      (readPlace w dst s) (readOperand src s)) s).mem := by
  simp [executeArith, h]

/-- CMP writes neither registers nor memory (R145, R154). -/
theorem executeArith_cmp {w : Width} (dst : Place) (src : Operand w) (s : State) :
    (executeArith .cmp dst src s).regs = s.regs ∧ (executeArith .cmp dst src s).mem = s.mem := ⟨rfl, rfl⟩

theorem executeArith_mem_wf {s : State} (h : s.mem.wf) (op : AluOp) {w : Width} (dst : Place) (src : Operand w) :
    (executeArith op dst src s).mem.wf := by
  cases op with
  | cmp => exact h
  | add => exact writePlace_mem_wf h w dst _
  | sub => exact writePlace_mem_wf h w dst _

/-! ## The end of an instruction -/

@[simp] theorem retire_regs (r : Record) (k : Bool) (x : Word) (s : State) : (retire r k x s).regs = s.regs := rfl
@[simp] theorem retire_pc (r : Record) (k : Bool) (x : Word) (s : State) : (retire r k x s).pc = x := rfl
@[simp] theorem retire_sf (r : Record) (k : Bool) (x : Word) (s : State) : (retire r k x s).sf = s.sf := rfl
@[simp] theorem retire_zf (r : Record) (k : Bool) (x : Word) (s : State) : (retire r k x s).zf = s.zf := rfl
@[simp] theorem retire_cyc (r : Record) (k : Bool) (x : Word) (s : State) :
    (retire r k x s).cyc = s.cyc + r.cost s.cycles k := rfl
@[simp] theorem retire_mem (r : Record) (k : Bool) (x : Word) (s : State) : (retire r k x s).mem = s.mem := rfl
@[simp] theorem retire_st (r : Record) (k : Bool) (x : Word) (s : State) : (retire r k x s).st = s.st := rfl
@[simp] theorem retire_cause (r : Record) (k : Bool) (x : Word) (s : State) : (retire r k x s).cause = s.cause := rfl
@[simp] theorem retire_ibuf (r : Record) (k : Bool) (x : Word) (s : State) : (retire r k x s).ibuf = s.ibuf := rfl
@[simp] theorem retire_len (r : Record) (k : Bool) (x : Word) (s : State) : (retire r k x s).len = s.len := rfl
@[simp] theorem retire_cycles (r : Record) (k : Bool) (x : Word) (s : State) :
    (retire r k x s).cycles = s.cycles := rfl
@[simp] theorem retire_trace (r : Record) (k : Bool) (x : Word) (s : State) :
    (retire r k x s).trace = s.trace ++ [.instr s.pc r (recordEffect r)] := rfl

theorem advance_eq (r : Record) (s : State) : advance r s = retire r false (fallthrough r s.pc) s := rfl

/-! ## Fatal events and the end test -/

/-- Taking a fatal event changes ST, CAUSE and the trace, nothing else (R250, R258). -/
theorem raiseFatal_eq (e : FatalEvent) (s : State) :
    raiseFatal e s = { s with
      st := .faulted, cause := some e,
      trace := s.trace ++ [.fault e s.pc, .dump ⟨s.regs, s.pc, s.sf, s.zf, s.cyc, .faulted, some e⟩] } := by
  simp [raiseFatal, State.emitDump, State.emit, State.dumpNow, State.withStatus]

/-- The three answers of the end test (R231). -/
theorem endTest_cases (s : State) :
    (s.pc.toNat = s.len ∧ endTest s = (s.withStatus .halted none).emitDump) ∨
    (s.len < s.pc.toNat ∧ endTest s = raiseFatal .pcOutOfRange s) ∨
    (s.pc.toNat < s.len ∧ endTest s = s) := by
  unfold endTest
  split_ifs with h1 h2
  · exact .inl ⟨h1, rfl⟩
  · exact .inr (.inl ⟨h2, rfl⟩)
  · exact .inr (.inr ⟨by omega, rfl⟩)

/-- The end test changes ST, CAUSE and the trace, nothing else. -/
theorem endTest_frame (s : State) :
    (endTest s).regs = s.regs ∧ (endTest s).pc = s.pc ∧ (endTest s).sf = s.sf ∧ (endTest s).zf = s.zf ∧
    (endTest s).cyc = s.cyc ∧ (endTest s).mem = s.mem ∧ (endTest s).ibuf = s.ibuf ∧
    (endTest s).cycles = s.cycles := by
  rcases endTest_cases s with ⟨-, h⟩ | ⟨-, h⟩ | ⟨-, h⟩ <;> rw [h] <;> exact ⟨rfl, rfl, rfl, rfl, rfl, rfl, rfl, rfl⟩

/-! ## Fetching -/

/-- What is decoded at PC is what `IFetch` returns from PC on (R51). -/
theorem bytesAtPc_getElem (s : State) (k : Nat) : s.bytesAtPc[k]? = ifetch s (s.pc.toNat + k) := by
  simp [State.bytesAtPc, ifetch]

end Sys2Proof.Machine
end

