-- ==== Sys2Proof/Laws/Step.lean ====
section
/-! SUPPORT. Said once: what an instruction's meaning can do, and what a step can do. Every whole-machine property is
derived from these. -/

namespace Sys2Proof.Machine

/-- What an instruction's meaning can do: an effect on registers, memory and flags, then the cost, the trace record of
that instruction, and a PC that is the fall-through or, for JNZ with ZF clear, its target (46_step.md R230). -/
theorem exec_cases (i : Instr) (s : State) :
    ∃ u, SameControl s u ∧ (s.mem.wf → u.mem.wf) ∧
      (exec i s = .next (advance i.record u) ∨
       (u = s ∧ s.zf = false ∧ ∃ d, i = .jnz d ∧ exec i s = .next (retire i.record true (jumpTarget d s.pc) s))) := by
  have same : s.mem.wf → s.mem.wf := id
  cases i
  case movRm d w reg rm =>
    exact ⟨_, writePlace_sameControl _ _ _ s, fun h => writePlace_mem_wf h _ _ _, .inl rfl⟩
  case movRmImm rm imm =>
    exact ⟨_, writePlace_sameControl _ _ _ s, fun h => writePlace_mem_wf h _ _ _, .inl rfl⟩
  case movRegImm reg imm =>
    exact ⟨_, writePlace_sameControl _ _ _ s, fun h => writePlace_mem_wf h _ _ _, .inl rfl⟩
  case movAcc w addr =>
    exact ⟨_, writePlace_sameControl _ _ _ s, fun h => writePlace_mem_wf h _ _ _, .inl rfl⟩
  case jnz d =>
    cases hz : s.zf
    · exact ⟨s, .refl s, same, .inr ⟨rfl, rfl, d, rfl, by simp [exec, execJnz, hz, Instr.record]⟩⟩
    · exact ⟨s, .refl s, same, .inl (by simp [exec, execJnz, hz, Instr.record])⟩
  all_goals first
    | exact ⟨s, .refl s, same, .inl rfl⟩
    | exact ⟨_, executeArith_sameControl _ _ _ s, fun h => executeArith_mem_wf h _ _ _, .inl rfl⟩

/-- Every instruction completes in every state. -/
theorem exec_next (i : Instr) (s : State) : ∃ t, exec i s = .next t := by
  obtain ⟨u, -, -, h | ⟨-, -, d, -, h⟩⟩ := exec_cases i s <;> exact ⟨_, h⟩

/-- What a step can do (46_step.md R230, R231). -/
theorem step_cases {s t : State} (h : step s = .next t) :
    s.startOk = true ∧
    ((s.st ≠ .running ∧ t = s) ∨
     (s.st = .running ∧ decode s.bytesAtPc = .truncated ∧ t = raiseFatal .decodeTruncated s) ∨
     (∃ b0, s.st = .running ∧ decode s.bytesAtPc = .unrecognised b0 ∧ t = endTest (skipUnrecognised b0 s)) ∨
     (∃ i u, s.st = .running ∧ decode s.bytesAtPc = .instr i ∧ exec i s = .next u ∧ t = endTest u)) := by
  unfold step fetch at h
  cases hok : s.startOk
  · simp [hok] at h
  · refine ⟨rfl, ?_⟩
    cases hst : s.st
    case running =>
      cases hd : decode s.bytesAtPc with
      | truncated => simp_all
      | unrecognised b0 => simp_all
      | instr i =>
        obtain ⟨u, hu⟩ := exec_next i s
        simp [hok, hst, hd, hu, thenEndTest] at h
        exact .inr (.inr (.inr ⟨i, u, rfl, rfl, hu, h.symm⟩))
    all_goals simp_all

/-- A step answers a next state exactly where the start conditions hold (60_exceptions.md R255). -/
theorem step_next_of_startOk {s : State} (h : s.startOk = true) : ∃ t, step s = .next t := by
  unfold step fetch
  cases hst : s.st
  case running =>
    cases hd : decode s.bytesAtPc with
    | instr i =>
      obtain ⟨u, hu⟩ := exec_next i s
      exact ⟨endTest u, by simp [h, hu, thenEndTest]⟩
    | _ => exact ⟨_, by simp [h]; rfl⟩
  all_goals exact ⟨s, by simp [h]⟩

end Sys2Proof.Machine
end

