-- ==== Sys2Proof/Laws/Frames.lean ====
section
/-! SUPPORT. The shared operations in the terms the statements use: numbers instead of bits, and what is left
untouched. -/

namespace Sys2Proof.Machine

/-! ## Numbers -/

theorem Word.succ_toNat (a : Word) : (a + 1).toNat = (a.toNat + 1) % 65536 := by bv_omega

theorem fallthrough_toNat (r : Record) (pc : Word) : (fallthrough r pc).toNat = (pc.toNat + r.len) % 65536 := by
  simp [fallthrough, BitVec.toNat_add]

/-- A word and its signed value are equal modulo 65536. -/
theorem Word.toNat_emod_toInt (d : Word) : (d.toNat : Int) % 65536 = d.toInt % 65536 := by
  have h := BitVec.toInt_eq_toNat_cond d
  split at h <;> omega

theorem sext16_emod (d : Byte) : ((sext16 d).toNat : Int) % 65536 = d.toInt % 65536 := by
  rw [Word.toNat_emod_toInt, sext16_toInt]

/-- The target of a jump as a number (43_jumps.md R161). -/
theorem jumpTarget_toNat (d : Byte) (pc : Word) :
    ((jumpTarget d pc).toNat : Int) = (pc.toNat + 2 + d.toInt) % 65536 := by
  have h := sext16_emod d
  have h2 : (2 : Word).toNat = 2 := rfl
  simp only [jumpTarget, BitVec.toNat_add, h2]
  omega

/-- The base formula as a number (40_operands.md R112, R115). -/
theorem Base.addr_toNat (b : Base) (r : Regs) : ((Base.addr b r).toNat : Int) = baseSum b r % 65536 := by
  have hbx := r.bx.isLt
  have hbp := r.bp.isLt
  have hsi := r.si.isLt
  have hdi := r.di.isLt
  cases b <;> simp only [Base.addr, baseSum, BitVec.toNat_add] <;> omega

/-- The class (f) immediate is its value modulo 2^W (30_encoding.md R74). -/
theorem immSValue_emod (imm : ImmS) :
    (imm.assembled.val.toNat : Int) % 2 ^ imm.assembled.width.bits = immSValue imm % 2 ^ imm.assembled.width.bits := by
  cases imm with
  | byte s v => rfl
  | word v => rfl
  | sext v => exact sext16_emod v

/-- The result of ADD is the exact sum, narrowed (42_arith.md R140). -/
theorem alu_add_narrowed {w : Width} (a b : BitVec w.bits) {y : Int}
    (hy : (b.toNat : Int) % 2 ^ w.bits = y % 2 ^ w.bits) :
    ((alu .add a b).toNat : Int) = narrowed w (a.toNat + y) := by
  cases w <;> simp only [alu, narrowed, Width.bits, BitVec.toNat_add] at * <;> omega

/-- The result of SUB and of CMP is the exact difference, narrowed (42_arith.md R140). -/
theorem alu_sub_narrowed {w : Width} (a b : BitVec w.bits) {y : Int}
    (hy : (b.toNat : Int) % 2 ^ w.bits = y % 2 ^ w.bits) :
    ((alu .sub a b).toNat : Int) = narrowed w (a.toNat - y) := by
  have hb := b.isLt
  cases w <;> simp only [alu, narrowed, Width.bits, BitVec.toNat_sub] at * <;> omega

/-- Flags taken from a result describe the exact number it narrows (42_arith.md R141). -/
theorem flagsFrom_of_result {w : Width} {r : BitVec w.bits} {x : Int} (hx : (r.toNat : Int) = narrowed w x) {t : State}
    (hs : t.sf = signOf r) (hz : t.zf = zeroOf r) : FlagsFrom w x t := by
  rw [FlagsFrom, ← hx, hs, hz]
  cases w
  case byte =>
    refine ⟨?_, ?_⟩
    · simp only [signOf, BitVec.msb_eq_decide, decide_eq_true_eq, Width.bits]
      norm_num
    · simp only [zeroOf, beq_iff_eq, ← BitVec.toNat_inj]
      simp
  case word =>
    refine ⟨?_, ?_⟩
    · simp only [signOf, BitVec.msb_eq_decide, decide_eq_true_eq, Width.bits]
      norm_num
    · simp only [zeroOf, beq_iff_eq, ← BitVec.toNat_inj]
      simp

/-- The start conditions on LEN (70_reset_and_hazards.md R283). -/
theorem State.startOk_iff (s : State) : s.startOk = true ↔ 1 ≤ s.len ∧ s.len ≤ 1024 := decide_eq_true_iff

/-! ## Frames -/

/-- A write through `writePlace` leaves all but its destination untouched (R117). -/
theorem untouched_of_write {w : Width} {p : Place} {v : BitVec w.bits} {s t : State}
    (hr : t.regs = (writePlace w p v s).regs) (hm : t.mem = (writePlace w p v s).mem) :
    Untouched w (some p) s t where
  slots i h := by
    cases p with
    | reg c =>
      rw [hr]
      exact regWrite_get_other (h c rfl) v s.regs
    | mem a => rw [hr, writePlace_mem_regs]
  half c k hp hw hk := by
    subst hw
    cases hp
    rw [hr]
    exact regWrite_byte_other_half c v s.regs hk
  bytes a h := by
    cases p with
    | reg c => rw [hm, writePlace_reg_mem]
    | mem x =>
      obtain ⟨h0, h1⟩ := h x rfl
      rw [hm]
      exact memWrite_read_other h0 fun hw => by rw [Word.succ_toNat]; exact h1 hw

theorem untouched_of_eq {w : Width} {s t : State} (hr : t.regs = s.regs) (hm : t.mem = s.mem) :
    Untouched w none s t := by
  constructor <;> intros <;> simp_all

theorem readPlace_advance (w : Width) (p : Place) (r : Record) (u : State) :
    readPlace w p (advance r u) = readPlace w p u := readPlace_congr w p rfl rfl

/-- The end of an instruction that falls through, whatever its effect on registers, memory and flags was. -/
theorem fellThrough_advance {s u : State} (i : Instr) (h : SameControl s u) :
    FellThrough i (recordEffect i.record) s (advance i.record u) := by
  refine ⟨?_, ⟨?_, ?_⟩, ?_⟩
  · rw [advance_eq, retire_pc, fallthrough_toNat, h.pc, Instr.len]
  · simp [advance_eq, h.cyc, h.cycles]
  · simp [advance_eq, h.trace, h.pc]
  · simp [ControlKept, advance_eq, h.st, h.cause, h.ibuf, h.cycles]

/-! ## One instruction inside a step -/

theorem step_of_instr {s u : State} {i : Instr} (hok : s.startOk = true) (hst : s.st = .running)
    (hd : decode s.bytesAtPc = .instr i) (hu : exec i s = .next u) : step s = .next (endTest u) := by
  simp [step, fetch, hok, hst, hd, hu, thenEndTest]

/-- What an instruction's meaning does to everything but registers, memory and flags. -/
theorem exec_control {i : Instr} {s u : State} (h : exec i s = .next u) :
    ControlKept s u ∧ u.trace = s.trace ++ [.instr s.pc i.record (recordEffect i.record)] ∧
    (s.mem.wf → u.mem.wf) ∧
    (u.pc = fallthrough i.record s.pc ∨ ∃ d, i = .jnz d ∧ s.zf = false ∧ u.pc = jumpTarget d s.pc) := by
  obtain ⟨x, hs, hm, h' | ⟨rfl, hz, d, rfl, h'⟩⟩ := exec_cases i s <;> rw [h'] at h <;> cases h
  · exact ⟨⟨hs.st, hs.cause, hs.ibuf, hs.cycles⟩, by simp [advance_eq, hs.trace, hs.pc], hm,
      .inl (by simp [advance_eq, hs.pc])⟩
  · exact ⟨⟨rfl, rfl, rfl, rfl⟩, rfl, id, .inr ⟨d, rfl, hz, rfl⟩⟩

theorem ControlKept.len {s u : State} (h : ControlKept s u) : u.len = s.len := by
  rw [State.len, h.2.2.1, State.len]

end Sys2Proof.Machine
end

