-- ==== Sys2Proof/Laws/PerInstr.lean ====
section
/-! SUPPORT. Two facts about every instruction as syntax, one lemma per constructor: an instruction and its record
determine each other with the same well-formedness, and the encoder writes as many bytes as the length table says. -/

namespace Sys2Proof.Laws.RecordForm

/-- The instruction is the opcode-table row of its record, and both are well-formed or neither. -/
def Statement (i : Instr) : Prop := i.record.toInstr = i ∧ i.record.wf = i.wf

theorem movRm (d : Dir) (w : Width) (reg : RegCode) (rm : Rm) : Statement (.movRm d w reg rm) := ⟨rfl, rfl⟩
theorem movRmImm (rm : Rm) (imm : Imm) : Statement (.movRmImm rm imm) := ⟨rfl, rfl⟩
theorem movRegImm (reg : RegCode) (imm : Imm) : Statement (.movRegImm reg imm) := ⟨rfl, rfl⟩
theorem movAcc (w : Width) (addr : Word) : Statement (.movAcc w addr) := ⟨rfl, rfl⟩
theorem addRm (d : Dir) (w : Width) (reg : RegCode) (rm : Rm) : Statement (.addRm d w reg rm) := ⟨rfl, rfl⟩
theorem addRmImm (rm : Rm) (imm : ImmS) : Statement (.addRmImm rm imm) := ⟨rfl, rfl⟩
theorem addAcc (imm : Imm) : Statement (.addAcc imm) := ⟨rfl, rfl⟩
theorem orRm (d : Dir) (w : Width) (reg : RegCode) (rm : Rm) : Statement (.orRm d w reg rm) := ⟨rfl, rfl⟩
theorem orRmImm (rm : Rm) (imm : ImmS) : Statement (.orRmImm rm imm) := ⟨rfl, rfl⟩
theorem orAcc (imm : Imm) : Statement (.orAcc imm) := ⟨rfl, rfl⟩
theorem adcRm (d : Dir) (w : Width) (reg : RegCode) (rm : Rm) : Statement (.adcRm d w reg rm) := ⟨rfl, rfl⟩
theorem adcRmImm (rm : Rm) (imm : ImmS) : Statement (.adcRmImm rm imm) := ⟨rfl, rfl⟩
theorem adcAcc (imm : Imm) : Statement (.adcAcc imm) := ⟨rfl, rfl⟩
theorem sbbRm (d : Dir) (w : Width) (reg : RegCode) (rm : Rm) : Statement (.sbbRm d w reg rm) := ⟨rfl, rfl⟩
theorem sbbRmImm (rm : Rm) (imm : ImmS) : Statement (.sbbRmImm rm imm) := ⟨rfl, rfl⟩
theorem sbbAcc (imm : Imm) : Statement (.sbbAcc imm) := ⟨rfl, rfl⟩
theorem andRm (d : Dir) (w : Width) (reg : RegCode) (rm : Rm) : Statement (.andRm d w reg rm) := ⟨rfl, rfl⟩
theorem andRmImm (rm : Rm) (imm : ImmS) : Statement (.andRmImm rm imm) := ⟨rfl, rfl⟩
theorem andAcc (imm : Imm) : Statement (.andAcc imm) := ⟨rfl, rfl⟩
theorem subRm (d : Dir) (w : Width) (reg : RegCode) (rm : Rm) : Statement (.subRm d w reg rm) := ⟨rfl, rfl⟩
theorem subRmImm (rm : Rm) (imm : ImmS) : Statement (.subRmImm rm imm) := ⟨rfl, rfl⟩
theorem subAcc (imm : Imm) : Statement (.subAcc imm) := ⟨rfl, rfl⟩
theorem xorRm (d : Dir) (w : Width) (reg : RegCode) (rm : Rm) : Statement (.xorRm d w reg rm) := ⟨rfl, rfl⟩
theorem xorRmImm (rm : Rm) (imm : ImmS) : Statement (.xorRmImm rm imm) := ⟨rfl, rfl⟩
theorem xorAcc (imm : Imm) : Statement (.xorAcc imm) := ⟨rfl, rfl⟩
theorem cmpRm (d : Dir) (w : Width) (reg : RegCode) (rm : Rm) : Statement (.cmpRm d w reg rm) := ⟨rfl, rfl⟩
theorem cmpRmImm (rm : Rm) (imm : ImmS) : Statement (.cmpRmImm rm imm) := ⟨rfl, rfl⟩
theorem cmpAcc (imm : Imm) : Statement (.cmpAcc imm) := ⟨rfl, rfl⟩
theorem jo (disp : Byte) : Statement (.jo disp) := ⟨rfl, rfl⟩
theorem jno (disp : Byte) : Statement (.jno disp) := ⟨rfl, rfl⟩
theorem jb (disp : Byte) : Statement (.jb disp) := ⟨rfl, rfl⟩
theorem jnb (disp : Byte) : Statement (.jnb disp) := ⟨rfl, rfl⟩
theorem jz (disp : Byte) : Statement (.jz disp) := ⟨rfl, rfl⟩
theorem jnz (disp : Byte) : Statement (.jnz disp) := ⟨rfl, rfl⟩
theorem jbe (disp : Byte) : Statement (.jbe disp) := ⟨rfl, rfl⟩
theorem ja (disp : Byte) : Statement (.ja disp) := ⟨rfl, rfl⟩
theorem js (disp : Byte) : Statement (.js disp) := ⟨rfl, rfl⟩
theorem jns (disp : Byte) : Statement (.jns disp) := ⟨rfl, rfl⟩
theorem jp (disp : Byte) : Statement (.jp disp) := ⟨rfl, rfl⟩
theorem jnp (disp : Byte) : Statement (.jnp disp) := ⟨rfl, rfl⟩
theorem jl (disp : Byte) : Statement (.jl disp) := ⟨rfl, rfl⟩
theorem jnl (disp : Byte) : Statement (.jnl disp) := ⟨rfl, rfl⟩
theorem jle (disp : Byte) : Statement (.jle disp) := ⟨rfl, rfl⟩
theorem jg (disp : Byte) : Statement (.jg disp) := ⟨rfl, rfl⟩
theorem loopnz (disp : Byte) : Statement (.loopnz disp) := ⟨rfl, rfl⟩
theorem loopz (disp : Byte) : Statement (.loopz disp) := ⟨rfl, rfl⟩
theorem loop (disp : Byte) : Statement (.loop disp) := ⟨rfl, rfl⟩
theorem jcxz (disp : Byte) : Statement (.jcxz disp) := ⟨rfl, rfl⟩

end Sys2Proof.Laws.RecordForm

namespace Sys2Proof.Laws.Length

/-- The encoding has the length of R89, 2 to 6 bytes (R70). -/
def Statement (i : Instr) : Prop := (encode i).length = i.len ∧ 2 ≤ i.len ∧ i.len ≤ Config.maxInstrLen

/-- The length of any instruction, by its record. -/
theorem ofRecord (i : Instr) : Statement i := ⟨i.record.encoded_length, i.record.len_bounds⟩

theorem movRm (d : Dir) (w : Width) (reg : RegCode) (rm : Rm) : Statement (.movRm d w reg rm) := ofRecord _
theorem movRmImm (rm : Rm) (imm : Imm) : Statement (.movRmImm rm imm) := ofRecord _
theorem movRegImm (reg : RegCode) (imm : Imm) : Statement (.movRegImm reg imm) := ofRecord _
theorem movAcc (w : Width) (addr : Word) : Statement (.movAcc w addr) := ofRecord _
theorem addRm (d : Dir) (w : Width) (reg : RegCode) (rm : Rm) : Statement (.addRm d w reg rm) := ofRecord _
theorem addRmImm (rm : Rm) (imm : ImmS) : Statement (.addRmImm rm imm) := ofRecord _
theorem addAcc (imm : Imm) : Statement (.addAcc imm) := ofRecord _
theorem orRm (d : Dir) (w : Width) (reg : RegCode) (rm : Rm) : Statement (.orRm d w reg rm) := ofRecord _
theorem orRmImm (rm : Rm) (imm : ImmS) : Statement (.orRmImm rm imm) := ofRecord _
theorem orAcc (imm : Imm) : Statement (.orAcc imm) := ofRecord _
theorem adcRm (d : Dir) (w : Width) (reg : RegCode) (rm : Rm) : Statement (.adcRm d w reg rm) := ofRecord _
theorem adcRmImm (rm : Rm) (imm : ImmS) : Statement (.adcRmImm rm imm) := ofRecord _
theorem adcAcc (imm : Imm) : Statement (.adcAcc imm) := ofRecord _
theorem sbbRm (d : Dir) (w : Width) (reg : RegCode) (rm : Rm) : Statement (.sbbRm d w reg rm) := ofRecord _
theorem sbbRmImm (rm : Rm) (imm : ImmS) : Statement (.sbbRmImm rm imm) := ofRecord _
theorem sbbAcc (imm : Imm) : Statement (.sbbAcc imm) := ofRecord _
theorem andRm (d : Dir) (w : Width) (reg : RegCode) (rm : Rm) : Statement (.andRm d w reg rm) := ofRecord _
theorem andRmImm (rm : Rm) (imm : ImmS) : Statement (.andRmImm rm imm) := ofRecord _
theorem andAcc (imm : Imm) : Statement (.andAcc imm) := ofRecord _
theorem subRm (d : Dir) (w : Width) (reg : RegCode) (rm : Rm) : Statement (.subRm d w reg rm) := ofRecord _
theorem subRmImm (rm : Rm) (imm : ImmS) : Statement (.subRmImm rm imm) := ofRecord _
theorem subAcc (imm : Imm) : Statement (.subAcc imm) := ofRecord _
theorem xorRm (d : Dir) (w : Width) (reg : RegCode) (rm : Rm) : Statement (.xorRm d w reg rm) := ofRecord _
theorem xorRmImm (rm : Rm) (imm : ImmS) : Statement (.xorRmImm rm imm) := ofRecord _
theorem xorAcc (imm : Imm) : Statement (.xorAcc imm) := ofRecord _
theorem cmpRm (d : Dir) (w : Width) (reg : RegCode) (rm : Rm) : Statement (.cmpRm d w reg rm) := ofRecord _
theorem cmpRmImm (rm : Rm) (imm : ImmS) : Statement (.cmpRmImm rm imm) := ofRecord _
theorem cmpAcc (imm : Imm) : Statement (.cmpAcc imm) := ofRecord _
theorem jo (disp : Byte) : Statement (.jo disp) := ofRecord _
theorem jno (disp : Byte) : Statement (.jno disp) := ofRecord _
theorem jb (disp : Byte) : Statement (.jb disp) := ofRecord _
theorem jnb (disp : Byte) : Statement (.jnb disp) := ofRecord _
theorem jz (disp : Byte) : Statement (.jz disp) := ofRecord _
theorem jnz (disp : Byte) : Statement (.jnz disp) := ofRecord _
theorem jbe (disp : Byte) : Statement (.jbe disp) := ofRecord _
theorem ja (disp : Byte) : Statement (.ja disp) := ofRecord _
theorem js (disp : Byte) : Statement (.js disp) := ofRecord _
theorem jns (disp : Byte) : Statement (.jns disp) := ofRecord _
theorem jp (disp : Byte) : Statement (.jp disp) := ofRecord _
theorem jnp (disp : Byte) : Statement (.jnp disp) := ofRecord _
theorem jl (disp : Byte) : Statement (.jl disp) := ofRecord _
theorem jnl (disp : Byte) : Statement (.jnl disp) := ofRecord _
theorem jle (disp : Byte) : Statement (.jle disp) := ofRecord _
theorem jg (disp : Byte) : Statement (.jg disp) := ofRecord _
theorem loopnz (disp : Byte) : Statement (.loopnz disp) := ofRecord _
theorem loopz (disp : Byte) : Statement (.loopz disp) := ofRecord _
theorem loop (disp : Byte) : Statement (.loop disp) := ofRecord _
theorem jcxz (disp : Byte) : Statement (.jcxz disp) := ofRecord _

end Sys2Proof.Laws.Length
end

