-- ==== Sys2Proof/Tests/Slice0.lean ====
section
/-! SUPPORT. Tests with results taken from the spec (95_test_vectors.md by vector number, or the encodings of
30_encoding.md written out by hand), and one witness for every statement with hypotheses. -/

namespace Sys2Proof.Tests

open Sys2Proof.Machine

/-! ## WellFormed -/

/-- The one form without an encoding (40_operands.md R114) is refused wherever an addressing form stands. -/
theorem test_wf_refuses_bp_alone :
    Rm.wf (.base .bp) = false ∧
    Record.wf (.movRm .toRm .word .r0 (.base .bp)) = false ∧
    Record.wf (.movRmImm (.base .bp) (.byte 0)) = false ∧
    Record.wf (.arithRm .add .toReg .byte .r0 (.base .bp)) = false ∧
    Record.wf (.arithRmImm .cmp (.base .bp) (.sext 0)) = false := by decide

theorem test_wf_refuses_bp_alone_mov :
    Instr.wf (.movRm .toRm .word .r0 (.base .bp)) = false ∧
    Instr.wf (.movRmImm (.base .bp) (.byte 7)) = false := by decide

theorem test_wf_refuses_bp_alone_arith :
    (∀ i ∈ [Instr.addRm .toRm .word .r0 (.base .bp), .orRm .toRm .word .r0 (.base .bp),
      .adcRm .toRm .word .r0 (.base .bp), .sbbRm .toRm .word .r0 (.base .bp), .andRm .toRm .word .r0 (.base .bp),
      .subRm .toRm .word .r0 (.base .bp), .xorRm .toRm .word .r0 (.base .bp), .cmpRm .toRm .word .r0 (.base .bp)],
      i.wf = false) ∧
    (∀ i ∈ [Instr.addRmImm (.base .bp) (.word 1), .orRmImm (.base .bp) (.word 1), .adcRmImm (.base .bp) (.word 1),
      .sbbRmImm (.base .bp) (.word 1), .andRmImm (.base .bp) (.word 1), .subRmImm (.base .bp) (.word 1),
      .xorRmImm (.base .bp) (.word 1), .cmpRmImm (.base .bp) (.word 1)], i.wf = false) := by decide

/-- BP with a displacement, and every other base without one, is accepted. -/
theorem test_wf_accepts :
    Rm.wf (.disp8 .bp 0) = true ∧ Rm.wf (.disp16 .bp 0) = true ∧ Rm.wf (.base .bx) = true ∧
    Rm.wf (.direct 0xFFFF) = true ∧ Rm.wf (.reg .r6) = true := by decide

/-! ## Decoding: words written out from the encodings -/

/-- MOV: E1, E2, E3, E4, E5, E6, E7, E8, E9, E10, E11. -/
theorem test_decode_mov :
    decode [0x89, 0xD9] = .instr (.movRm .toRm .word .r3 (.reg .r1)) ∧
    decode [0x8A, 0x00] = .instr (.movRm .toReg .byte .r0 (.base .bxSi)) ∧
    decode [0x8B, 0x56, 0x00] = .instr (.movRm .toReg .word .r2 (.disp8 .bp 0)) ∧
    decode [0x8B, 0x16, 0xE8, 0x03] = .instr (.movRm .toReg .word .r2 (.direct 0x03E8)) ∧
    decode [0xC6, 0x03, 0x07] = .instr (.movRmImm (.base .bpDi) (.byte 7)) ∧
    decode [0xC7, 0x85, 0x85, 0x03, 0x5B, 0x01] = .instr (.movRmImm (.disp16 .di 0x0385) (.word 0x015B)) ∧
    decode [0xC6, 0xE1, 0x07] = .instr (.movRmImm (.reg .r1) (.byte 7)) ∧
    decode [0xB9, 0x0C, 0x00] = .instr (.movRegImm .r1 (.word 12)) ∧
    decode [0xB5, 0xF4] = .instr (.movRegImm .r5 (.byte 244)) ∧
    decode [0xA1, 0xFB, 0x09] = .instr (.movAcc .word 0x09FB) ∧
    decode [0xA0, 0x10, 0x00] = .instr (.movAcc .byte 0x0010) := by decide

/-- Class (e), `00 op 0dw`, one per operation (R80): d, w and the operands vary; E12 and E13 among them. -/
theorem test_decode_arith_rm :
    decode [0x03, 0x18] = .instr (.addRm .toReg .word .r3 (.base .bxSi)) ∧
    decode [0x08, 0xE0] = .instr (.orRm .toRm .byte .r4 (.reg .r0)) ∧
    decode [0x13, 0x80, 0xE8, 0x03] = .instr (.adcRm .toReg .word .r0 (.disp16 .bxSi 1000)) ∧
    decode [0x1A, 0x4F, 0x80] = .instr (.sbbRm .toReg .byte .r1 (.disp8 .bx 0x80)) ∧
    decode [0x21, 0x3C] = .instr (.andRm .toRm .word .r7 (.base .si)) ∧
    decode [0x2B, 0x07] = .instr (.subRm .toReg .word .r0 (.base .bx)) ∧
    decode [0x31, 0xC0] = .instr (.xorRm .toRm .word .r0 (.reg .r0)) ∧
    decode [0x38, 0x2E, 0x34, 0x12] = .instr (.cmpRm .toRm .byte .r5 (.direct 0x1234)) := by decide

/-- Class (f), `1000 00sw`, `mod op rm` (R81): one per operation, every `s`, `w` pair; E14 to E21 among them. -/
theorem test_decode_arith_rm_imm :
    decode [0x82, 0xC3, 0xFB] = .instr (.addRmImm (.reg .r3) (.byte true 0xFB)) ∧
    decode [0x83, 0xC3, 0xFB] = .instr (.addRmImm (.reg .r3) (.sext 0xFB)) ∧
    decode [0x81, 0xC3, 0xFB, 0x00] = .instr (.addRmImm (.reg .r3) (.word 0x00FB)) ∧
    decode [0x80, 0xC9, 0x0F] = .instr (.orRmImm (.reg .r1) (.byte false 15)) ∧
    decode [0x83, 0x17, 0x01] = .instr (.adcRmImm (.base .bx) (.sext 1)) ∧
    decode [0x81, 0x5A, 0xFE, 0x34, 0x12] = .instr (.sbbRmImm (.disp8 .bpSi 0xFE) (.word 0x1234)) ∧
    decode [0x82, 0xE4, 0x01] = .instr (.andRmImm (.reg .r4) (.byte true 1)) ∧
    decode [0x80, 0x2F, 0x22] = .instr (.subRmImm (.base .bx) (.byte false 34)) ∧
    decode [0x83, 0xF6, 0x7F] = .instr (.xorRmImm (.reg .r6) (.sext 0x7F)) ∧
    decode [0x81, 0x3E, 0xE2, 0x12, 0x1D, 0x00] = .instr (.cmpRmImm (.direct 0x12E2) (.word 29)) := by decide

/-- Class (g), `00 op 10w`, one per operation (R82); E22, E23, E24 among them. -/
theorem test_decode_arith_acc :
    decode [0x05, 0xE8, 0x03] = .instr (.addAcc (.word 1000)) ∧ decode [0x0C, 0x0F] = .instr (.orAcc (.byte 15)) ∧
    decode [0x14, 0x01] = .instr (.adcAcc (.byte 1)) ∧ decode [0x1D, 0x01, 0x00] = .instr (.sbbAcc (.word 1)) ∧
    decode [0x25, 0x00, 0x00] = .instr (.andAcc (.word 0)) ∧ decode [0x2C, 0x09] = .instr (.subAcc (.byte 9)) ∧
    decode [0x34, 0x12] = .instr (.xorAcc (.byte 18)) ∧ decode [0x3D, 0xFF, 0xFF] = .instr (.cmpAcc (.word 0xFFFF)) := by
  decide

/-- Class (h), 0x70 to 0x7F in the order of 43_jumps.md R160; E25 to E28 among them. -/
theorem test_decode_jcc :
    decode [0x70, 0x80] = .instr (.jo 0x80) ∧ decode [0x71, 0x01] = .instr (.jno 1) ∧
    decode [0x72, 0x01] = .instr (.jb 1) ∧ decode [0x73, 0x01] = .instr (.jnb 1) ∧
    decode [0x74, 0x02] = .instr (.jz 2) ∧ decode [0x75, 0xF8] = .instr (.jnz 0xF8) ∧
    decode [0x76, 0x01] = .instr (.jbe 1) ∧ decode [0x77, 0x01] = .instr (.ja 1) ∧
    decode [0x78, 0x05] = .instr (.js 5) ∧ decode [0x79, 0x01] = .instr (.jns 1) ∧
    decode [0x7A, 0x01] = .instr (.jp 1) ∧ decode [0x7B, 0x01] = .instr (.jnp 1) ∧
    decode [0x7C, 0x01] = .instr (.jl 1) ∧ decode [0x7D, 0x01] = .instr (.jnl 1) ∧
    decode [0x7E, 0x01] = .instr (.jle 1) ∧ decode [0x7F, 0x7F] = .instr (.jg 0x7F) := by decide

/-- Class (i), 0xE0 to 0xE3 (R84); E29 and E30 among them. -/
theorem test_decode_loop :
    decode [0xE0, 0xFE] = .instr (.loopnz 0xFE) ∧ decode [0xE1, 0xFE] = .instr (.loopz 0xFE) ∧
    decode [0xE2, 0xFE] = .instr (.loop 0xFE) ∧ decode [0xE3, 0x00] = .instr (.jcxz 0) := by decide

/-- The twenty-four memory forms and the register form of `8B` (95_test_vectors.md section 2.2): mode 0. -/
theorem test_decode_mode0 :
    (∀ p ∈ [((0 : Byte), Base.bxSi), (1, .bxDi), (2, .bpSi), (3, .bpDi), (4, .si), (5, .di), (7, .bx)],
      decode [0x8B, p.1] = .instr (.movRm .toReg .word .r0 (.base p.2))) ∧
    decode [0x8B, 0x06, 0x01, 0x80] = .instr (.movRm .toReg .word .r0 (.direct 0x8001)) ∧
    decode [0x8B, 0xC7] = .instr (.movRm .toReg .word .r0 (.reg .r7)) := by decide

/-- Modes 1 and 2. -/
theorem test_decode_mode1_mode2 :
    (∀ p ∈ [((0 : Byte), Base.bxSi), (1, .bxDi), (2, .bpSi), (3, .bpDi), (4, .si), (5, .di), (6, .bp), (7, .bx)],
      decode [0x8B, 0x40 + p.1, 0xFE] = .instr (.movRm .toReg .word .r0 (.disp8 p.2 0xFE)) ∧
      decode [0x8B, 0x80 + p.1, 0x01, 0x80] = .instr (.movRm .toReg .word .r0 (.disp16 p.2 0x8001))) := by decide

/-- Bytes outside the nine classes: E31 to E34, 0xA3, and the first bytes 0xCD, 0xC4, 0xC8, 0x84, 0xE4, 0x60. -/
theorem test_decode_unrecognised :
    ∀ b ∈ [(0x90 : Byte), 0xA2, 0xF4, 0x26, 0xA3, 0xCD, 0xC4, 0xC8, 0x84, 0xE4, 0x60, 0x8C, 0x06, 0x07, 0x3E, 0x3F],
      decode [b, 0, 0, 0, 0, 0] = .unrecognised b := by decide

/-- X1 to X4, and no byte at all. -/
theorem test_decode_truncated :
    decode [0xB8, 0x05] = .truncated ∧ decode [0x8B] = .truncated ∧ decode [0x8B, 0x80, 0x00] = .truncated ∧
    decode [0xC7, 0x07, 0x01] = .truncated ∧ decode [] = .truncated := by decide

/-- The encoder writes the words of E1, E6, E13, E15, E16, E20, E23, E25 and E29. -/
theorem test_encode :
    encode (.movRm .toRm .word .r3 (.reg .r1)) = [0x89, 0xD9] ∧
    encode (.movRmImm (.disp16 .di 901) (.word 347)) = [0xC7, 0x85, 0x85, 0x03, 0x5B, 0x01] ∧
    encode (.adcRm .toReg .word .r0 (.disp16 .bxSi 1000)) = [0x13, 0x80, 0xE8, 0x03] ∧
    encode (.addRmImm (.reg .r3) (.sext 0xFB)) = [0x83, 0xC3, 0xFB] ∧
    encode (.addRmImm (.reg .r3) (.word 251)) = [0x81, 0xC3, 0xFB, 0x00] ∧
    encode (.cmpRmImm (.direct 4834) (.word 29)) = [0x81, 0x3E, 0xE2, 0x12, 0x1D, 0x00] ∧
    encode (.subAcc (.byte 9)) = [0x2C, 0x09] ∧ encode (.jnz 0xF8) = [0x75, 0xF8] ∧
    encode (.loop 0xFE) = [0xE2, 0xFE] := by decide

/-- Lengths of E1, E3, E4, E6, E8, E9, E10, E19, E20 and E25. -/
theorem test_lengths :
    (∀ p ∈ [([(0x89 : Byte), 0xD9], 2), ([0x8B, 0x56, 0x00], 3), ([0x8B, 0x16, 0xE8, 0x03], 4),
      ([0xC7, 0x85, 0x85, 0x03, 0x5B, 0x01], 6), ([0xB9, 0x0C, 0x00], 3), ([0xB5, 0xF4], 2), ([0xA1, 0xFB, 0x09], 3),
      ([0x83, 0x3E, 0xE2, 0x12, 0x1D], 5), ([0x81, 0x3E, 0xE2, 0x12, 0x1D, 0x00], 6), ([0x75, 0xF8], 2)],
      (match decode p.1 with
        | .instr i => some i.len
        | .truncated | .unrecognised _ => none) = some p.2) := by decide

/-- The host's numbering: a one-byte row, a class (f) row with its first byte on top, and an unrecognised byte. -/
theorem test_decodeTableWord :
    decodeTableWord 8 0x8B = some (.movRm .toReg .word .r0 (.base .bxSi)) ∧
    decodeTableWord 8 0x75 = some (.jnz 0) ∧
    decodeTableWord 16 0x8028 = some (.subRmImm (.base .bxSi) (.byte false 0)) ∧
    decodeTableWord 16 0x8338 = some (.cmpRmImm (.base .bxSi) (.sext 0)) ∧
    decodeTableWord 8 0x90 = none := by decide

/-! ## The register table, T1 of 95_test_vectors.md -/

theorem test_register_names :
    [RegCode.r0, .r1, .r2, .r3, .r4, .r5, .r6, .r7].map (regName .word) =
      ["ax", "cx", "dx", "bx", "sp", "bp", "si", "di"] ∧
    [RegCode.r0, .r1, .r2, .r3, .r4, .r5, .r6, .r7].map (regName .byte) =
      ["al", "cl", "dl", "bl", "ah", "ch", "dh", "bh"] := by decide

/-! ## Single steps -/

/-- A started program's state with these registers and memory cells. -/
def at0 (bytes : List Byte) (regs : Regs := Regs.zero) (mem : Memory := []) : State :=
  { State.reset with ibuf := bytes, regs := regs, mem := mem }

/-- The state after one step; the state itself where there is no next one. -/
def after (s : State) : State :=
  match step s with
  | .next t => t
  | .fault _ | .refused _ => s

/-- M1, M2. -/
theorem test_mov_bytes :
    (after (at0 [0x88, 0xE0] { Regs.zero with ax := 0x12FF })).regs.ax = 0x1212 ∧
    (after (at0 [0x88, 0xE0] { Regs.zero with ax := 0x12FF })).cyc = 2 ∧
    (after (at0 [0xB4, 0x12] { Regs.zero with ax := 0x00FF })).regs.ax = 0x12FF ∧
    (after (at0 [0xB4, 0x12] { Regs.zero with ax := 0x00FF })).cyc = 4 := by decide

/-- M3: a word store at 0xFFFF wraps. -/
theorem test_mov_store_wraps :
    (after (at0 [0x89, 0x07] { Regs.zero with ax := 0xBEEF, bx := 0xFFFF })).mem = [(0, 0xBE), (0xFFFF, 0xEF)] ∧
    (after (at0 [0x89, 0x07] { Regs.zero with ax := 0xBEEF, bx := 0xFFFF })).cyc = 14 := by decide

/-- M4, M8. -/
theorem test_mov_old_base_and_class_b :
    (after (at0 [0x8B, 0x1F] { Regs.zero with bx := 0x0100 } [(0x100, 0x78), (0x101, 0x56)])).regs.bx = 0x5678 ∧
    (after (at0 [0xC6, 0xE1, 0x07] { Regs.zero with cx := 0xFFFF })).regs.cx = 0xFF07 := by decide

/-- M7, M9. -/
theorem test_mov_acc_and_mem_imm :
    (after (at0 [0xA1, 0xFF, 0xFF] Regs.zero [(0, 0x7D), (0xFFFF, 0x5C)])).regs.ax = 0x7D5C ∧
    (after (at0 [0xC7, 0x06, 0xE8, 0x03, 0x39, 0x30])).mem = [(1000, 0x39), (1001, 0x30)] ∧
    (after (at0 [0xC7, 0x06, 0xE8, 0x03, 0x39, 0x30])).cyc = 16 := by decide

/-- Section 2.2, wrap: `8B 40 FF` with BX = 0xFFFF, SI = 2. -/
theorem test_mov_address_wraps :
    (after (at0 [0x8B, 0x40, 0xFF] { Regs.zero with bx := 0xFFFF, si := 2 } [(0, 0x34), (1, 0x12)])).regs.ax = 0x1234 ∧
    (after (at0 [0x8B, 0x40, 0xFF] { Regs.zero with bx := 0xFFFF, si := 2 } [(0, 0x34), (1, 0x12)])).cyc = 19 := by
  decide

/-- A1, A2. -/
theorem test_add_word :
    (let t := after (at0 [0x01, 0xD8] { Regs.zero with ax := 0xFFFF, bx := 1 })
     (t.regs.ax, t.zf, t.sf, t.cyc)) = (0x0000, true, false, 3) ∧
    (let t := after (at0 [0x01, 0xD8] { Regs.zero with ax := 0x7FFF, bx := 1 })
     (t.regs.ax, t.zf, t.sf)) = (0x8000, false, true) := by decide

/-- A7, A8, A10. -/
theorem test_add_imm :
    (let t := after (at0 [0x80, 0xC4, 0x01] { Regs.zero with ax := 0xFF00 })
     (t.regs.ax, t.zf, t.sf, t.cyc)) = (0x0000, true, false, 4) ∧
    (let t := after (at0 [0x83, 0xC3, 0xFB] { Regs.zero with bx := 10 })
     (t.regs.bx, t.zf, t.sf)) = (0x0005, false, false) ∧
    (let t := after (at0 [0x82, 0xC3, 0xFB] { Regs.zero with bx := 0x1210 })
     (t.regs.bx, t.zf, t.sf)) = (0x120B, false, false) := by decide

/-- A5, A6. -/
theorem test_add_acc :
    (let t := after (at0 [0x04, 0x01] { Regs.zero with ax := 0x00FF })
     (t.regs.ax, t.zf, t.sf, t.cyc)) = (0x0000, true, false, 4) ∧
    (let t := after (at0 [0x04, 0x01] { Regs.zero with ax := 0x127F })
     (t.regs.ax, t.zf, t.sf)) = (0x1280, false, true) := by decide

/-- A13, A17. -/
theorem test_add_memory :
    (let t := after (at0 [0x00, 0x07] { Regs.zero with ax := 0x0180, bx := 0x2000 } [(0x2000, 0x80), (0x2001, 0x55)])
     (t.mem, t.zf, t.sf, t.cyc)) = ([(0x2001, 0x55)], true, false, 21) ∧
    (let t := after (at0 [0x01, 0x18] { Regs.zero with bx := 0x0010, si := 0x0020 } [(0x30, 0xF0), (0x31, 0xFF)])
     (t.mem, t.zf, t.sf, t.cyc)) = ([], true, false, 23) := by decide

/-- A3, A15. -/
theorem test_sub :
    (let t := after (at0 [0x29, 0xD8] { Regs.zero with bx := 1 })
     (t.regs.ax, t.zf, t.sf)) = (0xFFFF, false, true) ∧
    (let t := after (at0 [0x2B, 0x07] { Regs.zero with ax := 5, bx := 0x2000 } [(0x2000, 6)])
     (t.regs.ax, t.zf, t.sf, t.cyc)) = (0xFFFF, false, true, 14) := by decide

/-- Program P3 at offset 4 and program P1 at offset 9: `sub ax, 7` from 5, `sub cx, 1` from 1. -/
theorem test_sub_imm :
    (let t := after (at0 [0x2D, 0x07, 0x00] { Regs.zero with ax := 5 })
     (t.regs.ax, t.zf, t.sf, t.cyc)) = (0xFFFE, false, true, 4) ∧
    (let t := after (at0 [0x83, 0xE9, 0x01] { Regs.zero with cx := 1 })
     (t.regs.cx, t.zf, t.sf, t.cyc)) = (0, true, false, 4) := by decide

/-- A4, A14. -/
theorem test_cmp :
    (let t := after (at0 [0x39, 0xD8] { Regs.zero with ax := 3, bx := 5 })
     (t.regs.ax, t.zf, t.sf)) = (3, false, true) ∧
    (let t := after (at0 [0x3A, 0x07] { Regs.zero with ax := 5, bx := 0x2000 } [(0x2000, 6)])
     (t.regs.ax, t.mem, t.zf, t.sf, t.cyc)) = (5, [(0x2000, 6)], false, true, 14) := by decide

/-- A18, A20. -/
theorem test_cmp_imm :
    (let t := after (at0 [0x83, 0x7E, 0x00, 0x00] { Regs.zero with bp := 0x3000 })
     (t.zf, t.sf, t.cyc)) = (true, false, 15) ∧
    (let t := after (at0 [0x81, 0x3E, 0xE2, 0x12, 0x1D, 0x00])
     (t.mem, t.zf, t.sf, t.cyc)) = ([], false, true, 16) := by decide

/-- A12, A19: XOR and ADC do nothing. -/
theorem test_no_effect_rm :
    (let t := after { at0 [0x31, 0xC0] { Regs.zero with ax := 0x1234 } with sf := true }
     (t.regs.ax, t.sf, t.zf, t.cyc)) = (0x1234, true, false, 3) ∧
    (let t := after (at0 [0x13, 0x80, 0xE8, 0x03])
     (t.regs, t.mem, t.pc, t.cyc)) = (Regs.zero, [], 4, 20) := by decide

/-- A21, A22, A23: OR, AND and SBB do nothing. -/
theorem test_no_effect_acc :
    (let t := after (at0 [0x0C, 0x0F] { Regs.zero with ax := 0x00F0 })
     (t.regs.ax, t.zf, t.cyc)) = (0x00F0, false, 4) ∧
    (let t := after (at0 [0x25, 0x00, 0x00] { Regs.zero with ax := 0xFFFF })
     (t.regs.ax, t.zf, t.cyc)) = (0xFFFF, false, 4) ∧
    (let t := after (at0 [0x1D, 0x01, 0x00] { Regs.zero with ax := 1 })
     (t.regs.ax, t.zf, t.cyc)) = (1, false, 4) := by decide

/-- J1, J2. -/
theorem test_jnz :
    (let t := after (at0 [0x75, 0x00])
     (t.pc, t.cyc, t.st)) = (2, 16, RunStatus.halted) ∧
    (let t := after { at0 [0x75, 0x00] with zf := true }
     (t.pc, t.cyc, t.st)) = (2, 4, RunStatus.halted) := by decide

/-- J8, J9. -/
theorem test_jnz_backward :
    (let t := after (at0 [0x75, 0x80])
     (t.pc, t.cyc, t.st, t.causeCode)) = (0xFF82, 16, RunStatus.faulted, 2) ∧
    (let t := after (at0 [0x75, 0xFE])
     (t.pc, t.cyc, t.st)) = (0, 16, RunStatus.running) := by decide

/-- J3, J6: JZ with ZF set and JS with SF set fall through. -/
theorem test_jcc_no_effect :
    (let t := after { at0 [0x74, 0x02, 0x90, 0x90] with zf := true }
     (t.pc, t.cyc, t.trace)) = (2, 4, [TraceRecord.instr 0 (.jcc .z 2) .noEffect]) ∧
    (let t := after { at0 [0x78, 0x05] with sf := true }
     (t.pc, t.cyc, t.st)) = (2, 4, RunStatus.halted) := by decide

/-- J4, J5, J10, J11: the four loops neither count nor jump. -/
theorem test_loops_no_effect :
    (let t := after (at0 [0xE2, 0xFE] { Regs.zero with cx := 5 })
     (t.pc, t.regs.cx, t.cyc)) = (2, 5, 5) ∧
    (let t := after (at0 [0xE3, 0x00])
     (t.pc, t.cyc)) = (2, 6) ∧
    (let t := after (at0 [0xE0, 0xFE])
     (t.pc, t.cyc)) = (2, 5) ∧
    (let t := after { at0 [0xE1, 0xFE] with zf := true }
     (t.pc, t.cyc)) = (2, 6) := by decide

/-- X1: DecodeTruncated has no effect but ST, CAUSE, the fault record and the dump. -/
theorem test_truncated :
    (let t := after (at0 [0xB8, 0x05])
     (t.st, t.causeCode, t.pc, t.regs, t.cyc, t.trace)) =
    (RunStatus.faulted, 1, 0, Regs.zero, 0, [TraceRecord.fault .decodeTruncated 0,
      .dump ⟨Regs.zero, 0, false, false, 0, .faulted, some .decodeTruncated⟩]) := by decide

/-- X6: an unrecognised byte at the end. -/
theorem test_unrecognised :
    (let t := after (at0 [0xF4])
     (t.pc, t.st, t.cyc, t.trace)) =
    (1, RunStatus.halted, 0, [TraceRecord.diag 0 0xF4, .dump ⟨Regs.zero, 1, false, false, 0, .halted, none⟩]) := by
  decide

/-- X9: nothing loaded. -/
theorem test_start_refused : step State.reset = .refused .startRefused ∧ start [] = .refused .startRefused :=
  ⟨rfl, rfl⟩

/-- The host's placement: the word's instruction is the first to run after reset. -/
theorem test_withFetchWord :
    (let t := after (State.reset.withFetchWord 8 0xB8)
     (t.pc, t.cyc, t.st)) = (3, 4, RunStatus.running) ∧
    fetch (State.reset.withFetchWord 16 0x8028) = .instr (.subRmImm (.base .bxSi) (.byte false 0)) := by decide

/-! ## Text: R210 to R217 -/

/-- E7, E9, E10, E13, E15, E18, E21, E24, E26, E28 and E30 print their lines. -/
theorem test_text :
    (∀ p ∈ [([(0xC6 : Byte), 0xE1, 0x07], "mov cl, 7"), ([0xB5, 0xF4], "mov ch, 244"),
      ([0xA1, 0xFB, 0x09], "mov ax, [2555]"), ([0x13, 0x80, 0xE8, 0x03], "adc ax, [bx + si + 1000]"),
      ([0x83, 0xC3, 0xFB], "add bx, 65531"), ([0x82, 0xC3, 0xFB], "add bl, 251"),
      ([0x80, 0x2F, 0x22], "sub [bx], byte 34"), ([0x3D, 0xFF, 0xFF], "cmp ax, 65535"), ([0x74, 0x02], "jz $+4"),
      ([0x70, 0x80], "jo $-126"), ([0xE3, 0x00], "jcxz $+2")],
      (match decode p.1 with
        | .instr i => some i.record.text
        | .truncated | .unrecognised _ => none) = some p.2) := by decide

/-! ## Witnesses: the hypotheses of each statement hold together of something -/

/-- DecodeOfEncodeIsTheInstruction: the longest form, the direct address, a register. -/
theorem witness_encode :
    Instr.wf (.movRmImm (.disp16 .bp 0xFFFF) (.word 0xFFFF)) = true ∧ Instr.wf (.addRm .toReg .byte .r7 (.direct 0)) = true ∧
    Instr.wf (.cmpRm .toRm .word .r4 (.reg .r7)) = true := by decide

/-- BytesThatDecodeAreTheEncoding: outside class (b), and in class (b) with the middle field not 0. -/
theorem witness_bytes_decode :
    decode [0x75, 0xFE] = .instr (.jnz 0xFE) ∧ (Instr.jnz 0xFE).record.cls ≠ 'b' ∧
    decode [0xC6, 0xE1, 0x07] = .instr (.movRmImm (.reg .r1) (.byte 7)) ∧
    (Instr.movRmImm (.reg .r1) (.byte 7)).record.cls = 'b' := by decide

/-- UnrecognisedExactlyWhereNoMaskMatches: both sides of the equivalence hold of 0x90 and fail of 0xA1. -/
theorem witness_unrecognised_mask :
    decode [0x90] = .unrecognised 0x90 ∧ decode [0xA1, 0, 0] ≠ .unrecognised 0xA1 ∧
    (0x90 : Byte) &&& 0xFC ≠ 0x88 ∧ (0xA1 : Byte) &&& 0xFE = 0xA0 := by decide

/-- EveryProperPrefixIsTruncated: no byte at all, and all bytes but the last. -/
theorem witness_prefix :
    Instr.wf (.movRmImm (.disp16 .di 901) (.word 347)) = true ∧ 0 < Instr.len (.movRmImm (.disp16 .di 901) (.word 347)) ∧
    5 < Instr.len (.movRmImm (.disp16 .di 901) (.word 347)) := by decide

/-- ByteAndWordViewsAlias: both halves, of the same slot as the word register. -/
theorem witness_views :
    (regLookup .byte .r3).half = some .low ∧ (regLookup .byte .r7).half = some .high ∧
    (regLookup .byte .r3).index = (regLookup .word .r3).index ∧ (regLookup .byte .r7).index = (regLookup .word .r3).index := by
  decide

/-- ByteWritesKeepTheOtherHalf: both halves, and a slot that a byte code and a word code do not name. -/
theorem witness_byte_writes :
    (regLookup .byte .r0).half = some .low ∧ (regLookup .byte .r4).half = some .high ∧
    Slot.sp ≠ (regLookup .byte .r4).index ∧ Slot.ax ≠ (regLookup .word .r4).index := by decide

/-- ResolverGivesTheReducedExactAddress: a register, a sum above 65535, and a sum below 0. -/
theorem witness_resolver :
    Rm.reg .r7 = .reg .r7 ∧ exactAddress (.base .bxSi) { Regs.zero with bx := 0xFFFF, si := 1 } = some 65536 ∧
    exactAddress (.disp8 .bp 0xFF) Regs.zero = some (-1) := by decide

/-- FiveOperationsHaveNoEffect: the first and the last of the list. -/
theorem witness_five (d : Dir) (w : Width) (reg : RegCode) (rm : Rm) (immS : ImmS) (imm : Imm) :
    let ops := [Instr.orRm d w reg rm, .orRmImm rm immS, .orAcc imm, .adcRm d w reg rm, .adcRmImm rm immS, .adcAcc imm,
      .sbbRm d w reg rm, .sbbRmImm rm immS, .sbbAcc imm, .andRm d w reg rm, .andRmImm rm immS, .andAcc imm,
      .xorRm d w reg rm, .xorRmImm rm immS, .xorAcc imm]
    Instr.orRm d w reg rm ∈ ops ∧ Instr.xorAcc imm ∈ ops := by simp

/-- JnzBranchesExactlyWhenZfIsClear: the flag both ways, and a JNZ without its displacement byte. -/
theorem witness_jnz :
    (at0 [0x75, 0]).zf = false ∧ ({ at0 [0x75, 0] with zf := true } : State).zf = true ∧
    (at0 [0x75]).startOk = true ∧ (at0 [0x75]).st = .running ∧ (at0 [0x75]).bytesAtPc = [0x75] := by decide

/-- NineteenJumpsOnlyFallThrough: the first, a middle one and the last of the list, with their costs. -/
theorem witness_nineteen (d : Byte) (s : State) :
    let kinds := [(Instr.jo d, s.cycles.jccNotTaken), (.jno d, s.cycles.jccNotTaken), (.jb d, s.cycles.jccNotTaken),
      (.jnb d, s.cycles.jccNotTaken), (.jz d, s.cycles.jccNotTaken), (.jbe d, s.cycles.jccNotTaken),
      (.ja d, s.cycles.jccNotTaken), (.js d, s.cycles.jccNotTaken), (.jns d, s.cycles.jccNotTaken),
      (.jp d, s.cycles.jccNotTaken), (.jnp d, s.cycles.jccNotTaken), (.jl d, s.cycles.jccNotTaken),
      (.jnl d, s.cycles.jccNotTaken), (.jle d, s.cycles.jccNotTaken), (.jg d, s.cycles.jccNotTaken),
      (.loopnz d, s.cycles.loopnzNotTaken), (.loopz d, s.cycles.loopzNotTaken),
      (.loop d, s.cycles.loopNotTaken), (.jcxz d, s.cycles.jcxzNotTaken)]
    (Instr.jo d, s.cycles.jccNotTaken) ∈ kinds ∧ (Instr.loop d, s.cycles.loopNotTaken) ∈ kinds ∧
    (Instr.jcxz d, s.cycles.jcxzNotTaken) ∈ kinds := by simp

/-- CostIsAddedOncePerInstruction: a next state, of a taken JNZ and of another instruction. -/
theorem witness_cost :
    (∃ t, exec (.jnz 0) (at0 [0x75, 0]) = .next t) ∧ (∃ t, exec (.movAcc .word 0xFFFF) (at0 []) = .next t) :=
  ⟨⟨_, rfl⟩, ⟨_, rfl⟩⟩

/-- AddressCostFollowsTheFourGroups: each group, nonzero displacements. -/
theorem witness_groups :
    Base.bx ∈ [Base.si, .di, .bp, .bx] ∧ Base.bpDi ∈ [Base.bxSi, .bpDi] ∧ Base.bpSi ∈ [Base.bxDi, .bpSi] ∧
    (0xFF : Byte) ≠ 0 ∧ (0x8000 : Word) ≠ 0 := by decide

/-- InstructionCostFollowsTheTable: a memory operand's component, an operation other than CMP. -/
theorem witness_instruction_cost :
    Rm.eaCost? CycleTable.default (.disp8 .bpSi 1) = some 12 ∧ ArithOp.xor ≠ .cmp := by decide

/-- CycleTableHasNoFeedback: two different states alike but for the cycle table and total, both with a next state; and
two that are refused. -/
theorem witness_no_feedback :
    (at0 [0x75, 0]).sansCycles = ({ at0 [0x75, 0] with cyc := 7, cycles := { CycleTable.default with jccTaken := 0 } } : State).sansCycles ∧
    (∃ t, step (at0 [0x75, 0]) = .next t) ∧
    (at0 []).sansCycles = ({ at0 [] with cyc := 7 } : State).sansCycles ∧ step (at0 []) = .refused .startRefused :=
  ⟨by decide, ⟨_, rfl⟩, by decide, rfl⟩

/-- StepRunsTheDecodedInstruction: a running state at an instruction. -/
theorem witness_step_runs :
    (at0 [0x31, 0xC0]).startOk = true ∧ (at0 [0x31, 0xC0]).st = .running ∧
    Instr.wf (.xorRm .toRm .word .r0 (.reg .r0)) = true ∧
    decode ((at0 [0x31, 0xC0]).ibuf.drop (at0 [0x31, 0xC0]).pc.toNat) = .instr (.xorRm .toRm .word .r0 (.reg .r0)) ∧
    ∃ u, exec (.xorRm .toRm .word .r0 (.reg .r0)) (at0 [0x31, 0xC0]) = .next u :=
  ⟨by decide, by decide, by decide, by decide, ⟨_, rfl⟩⟩

/-- EndTestDecidesTheStatus: steps that end with PC at LEN, above it and below it, and a started program. -/
theorem witness_end_test :
    ((at0 [0x75, 0]).st = .running ∧ decode (at0 [0x75, 0]).bytesAtPc ≠ .truncated ∧
      ∃ t, step (at0 [0x75, 0]) = .next t ∧ t.pc.toNat = 2) ∧
    (decode (at0 [0x75, 1]).bytesAtPc ≠ .truncated ∧ ∃ t, step (at0 [0x75, 1]) = .next t ∧ 2 < t.pc.toNat) ∧
    (decode (at0 [0x75, 0xFF]).bytesAtPc ≠ .truncated ∧ ∃ t, step (at0 [0x75, 0xFF]) = .next t ∧ t.pc.toNat < 2) ∧
    ∃ t, start [0x75] = .next t :=
  ⟨⟨by decide, by decide, _, rfl, by decide⟩, ⟨by decide, _, rfl, by decide⟩, ⟨by decide, _, rfl, by decide⟩, _, rfl⟩

/-- JumpOutOfRangeFaultsAfterCompleting: J7. -/
theorem witness_out_of_range :
    (at0 [0x75, 0x10]).startOk = true ∧ (at0 [0x75, 0x10]).st = .running ∧
    decode (at0 [0x75, 0x10]).bytesAtPc = .instr (.jnz 0x10) ∧
    ∃ u, exec (.jnz 0x10) (at0 [0x75, 0x10]) = .next u ∧ (at0 [0x75, 0x10]).len < u.pc.toNat :=
  ⟨by decide, by decide, by decide, _, rfl, by decide⟩

/-- UnrecognisedByteIsSkipped: with bytes after it and as the last byte. -/
theorem witness_skip :
    ((at0 [0x90, 0x90]).startOk = true ∧ (at0 [0x90, 0x90]).st = .running ∧ (at0 [0x90, 0x90]).cause = none ∧
      (at0 [0x90, 0x90]).bytesAtPc = 0x90 :: [0x90] ∧ decode (at0 [0x90, 0x90]).bytesAtPc = .unrecognised 0x90 ∧
      ([0x90] : List Byte) ≠ []) ∧
    ((at0 [0xF4]).startOk = true ∧ (at0 [0xF4]).st = .running ∧ (at0 [0xF4]).cause = none ∧
      (at0 [0xF4]).bytesAtPc = 0xF4 :: [] ∧ decode (at0 [0xF4]).bytesAtPc = .unrecognised 0xF4) := by decide

/-- TruncatedInstructionFaultsWithNoEffect: X3. -/
theorem witness_truncated :
    (at0 [0x8B, 0x80, 0]).startOk = true ∧ (at0 [0x8B, 0x80, 0]).st = .running ∧
    decode (at0 [0x8B, 0x80, 0]).bytesAtPc = .truncated := by decide

/-- EndedRunsStandStillAndCyclesNeverDrop: a Halted and a Faulted state, and a step. -/
theorem witness_ended :
    ((after (at0 [0xF4])).startOk = true ∧ (after (at0 [0xF4])).st ≠ .running) ∧
    ((after (at0 [0x8B])).startOk = true ∧ (after (at0 [0x8B])).st ≠ .running) ∧
    ∃ t, step (at0 [0xF4]) = .next t :=
  ⟨by decide, by decide, _, rfl⟩

/-- StartRefusedExactlyOnBadLength: the lengths 0 and 1025 outside, 1 and 1024 inside. -/
theorem witness_start_lengths :
    (at0 []).len = 0 ∧ 1024 < (at0 (List.replicate 1025 0)).len ∧ 1 ≤ (at0 [0xF4]).len ∧
    (at0 (List.replicate 1024 0)).len ≤ 1024 :=
  ⟨rfl, by rw [State.len, at0, List.length_replicate]; decide, by decide,
    by rw [State.len, at0, List.length_replicate]⟩

/-- A started state meets the invariant. -/
theorem started_inv (bytes : List Byte) (h : 0 < bytes.length) : (at0 bytes).Inv :=
  ⟨(by decide : Memory.wf []), rfl, fun _ => ⟨h, rfl⟩⟩

/-- StepKeepsTheMachineInvariant: a state with the invariant, and its step. -/
theorem witness_invariant : (at0 [0x75, 0x10]).Inv ∧ ∃ t, step (at0 [0x75, 0x10]) = .next t :=
  ⟨started_inv _ (by decide), _, rfl⟩

/-- ResetAndStartHaveTheInvariant: a program that starts. -/
theorem witness_start : ∃ t, start [0xF4] = .next t := ⟨_, rfl⟩

/-- NoStepChangesTheProgram: a step that stores to data memory. -/
theorem witness_store_step : ∃ t, step (at0 [0xC6, 0x06, 0, 0, 0xF4]) = .next t ∧ t.mem = [(0, 0xF4)] :=
  ⟨_, rfl, by decide⟩

/-- OnlyAddSubCmpWriteFlags: a step that changes a flag. -/
theorem witness_flags_change :
    ∃ t, step (at0 [0x39, 0xD8]) = .next t ∧ ¬ FlagsKept (at0 [0x39, 0xD8]) t :=
  ⟨_, rfl, fun h => absurd h.2 (by decide)⟩

/-- OnlyStoresWriteMemory: a word store at 0xFFFF changes that byte and byte 0. -/
theorem witness_memory_change :
    ∃ t, step (at0 [0xC7, 0x06, 0xFF, 0xFF, 1, 2]) = .next t ∧
      t.mem.read 0xFFFF ≠ (at0 [0xC7, 0x06, 0xFF, 0xFF, 1, 2]).mem.read 0xFFFF ∧
      t.mem.read 0 ≠ (at0 [0xC7, 0x06, 0xFF, 0xFF, 1, 2]).mem.read 0 :=
  ⟨_, rfl, by decide, by decide⟩

/-- OneStepWritesAtMostOneRegister: a step that changes a register. -/
theorem witness_register_change :
    ∃ t, step (at0 [0xB9, 3, 0]) = .next t ∧ t.regs.get .cx ≠ (at0 [0xB9, 3, 0]).regs.get .cx :=
  ⟨_, rfl, by decide⟩

/-- OnlyATakenJnzLeavesTheProgram: J8. -/
theorem witness_leaves :
    (at0 [0x75, 0x80]).pc.toNat ≤ (at0 [0x75, 0x80]).len ∧
    ∃ t, step (at0 [0x75, 0x80]) = .next t ∧ (at0 [0x75, 0x80]).len < t.pc.toNat :=
  ⟨by decide, _, rfl, by decide⟩

/-- EveryStepEndsTheRunOrMovesPc: J9. -/
theorem witness_stays :
    (at0 [0x75, 0xFE]).st = .running ∧
    ∃ t, step (at0 [0x75, 0xFE]) = .next t ∧ t.st = .running ∧ t.pc = (at0 [0x75, 0xFE]).pc :=
  ⟨by decide, _, rfl, by decide, by decide⟩

/-- TraceGrowsByTheStepsRecords: a truncated, an unrecognised and a recognised head; a step that stays Running, one that
halts and one that faults. -/
theorem witness_trace :
    (decode (at0 [0x8B]).bytesAtPc = .truncated ∧ ∃ t, step (at0 [0x8B]) = .next t ∧ t.st = .faulted) ∧
    (decode (at0 [0xF4]).bytesAtPc = .unrecognised 0xF4 ∧ ∃ t, step (at0 [0xF4]) = .next t ∧ t.st = .halted) ∧
    (decode (at0 [0xE2, 0, 0]).bytesAtPc = .instr (.loop 0) ∧ ∃ t, step (at0 [0xE2, 0, 0]) = .next t ∧ t.st = .running) :=
  ⟨⟨by decide, _, rfl, by decide⟩, ⟨by decide, _, rfl, by decide⟩, ⟨by decide, _, rfl, by decide⟩⟩

/-- DisplacementTextFollowsItsSign: each clause at a limit of its range. -/
theorem witness_displacement :
    0 < 127 ∧ (0x7F : Byte).toInt = 127 ∧ (0x80 : Byte).toInt = -128 ∧ (0x7FFF : Word).toInt = 32767 ∧
    (0x8000 : Word).toInt = -32768 ∧ (0x7F : Byte).toInt + 2 = 129 ∧ (0x80 : Byte).toInt + 2 = -126 := by decide

/-- WrittenOutBytesPrintTheirLines: a member of its list. -/
theorem witness_lines : ([0x75, 0xF8], "jnz $-6") ∈ [(([0x75, 0xF8] : List Byte), "jnz $-6")] := by decide

/-- FirstByteMapNamesTheInstruction: six bytes, and bytes that decode under the masks of classes (e), (f) and (g). -/
theorem witness_first_byte :
    6 ≤ ([0xC7, 0x85, 0x85, 0x03, 0x5B, 0x01] : List Byte).length ∧
    decode [0x08, 0xE0] = .instr (.orRm .toRm .byte .r4 (.reg .r0)) ∧ (0x08 : Byte) &&& 0xFC = 0x08 ∧
    decode [0x83, 0x17, 0x01] = .instr (.adcRmImm (.base .bx) (.sext 1)) ∧ (0x83 : Byte) &&& 0xFC = 0x80 ∧
    (0x17 : Byte) &&& 0x38 = 0x10 ∧ decode [0x34, 0x12] = .instr (.xorAcc (.byte 18)) ∧ (0x34 : Byte) &&& 0xFE = 0x34 := by
  decide

/-- AddressingByteNamesTheOperands: each mode, the direct address among them. -/
theorem witness_addressing :
    (decode [0x8B, 0x3F] = .instr (.movRm .toReg .word .r7 (.base .bx)) ∧ (0x3F : Byte) &&& 0x38 = 0x38 ∧
      (0x3F : Byte) &&& 0xC7 = 0x07) ∧
    (decode [0x8B, 0x06, 0x01, 0x80] = .instr (.movRm .toReg .word .r0 (.direct 0x8001)) ∧ (0x06 : Byte) &&& 0xC7 = 0x06) ∧
    (decode [0x8B, 0x46, 0xFE] = .instr (.movRm .toReg .word .r0 (.disp8 .bp 0xFE)) ∧ (0x46 : Byte) &&& 0xC7 = 0x46) ∧
    (decode [0x8B, 0x87, 0x01, 0x80] = .instr (.movRm .toReg .word .r0 (.disp16 .bx 0x8001)) ∧
      (0x87 : Byte) &&& 0xC7 = 0x87) ∧
    (decode [0x8B, 0xC7] = .instr (.movRm .toReg .word .r0 (.reg .r7)) ∧ (0xC7 : Byte) &&& 0xC7 = 0xC7) := by decide

/-- AliasedEncodingsDoTheSame: the first and the last pair of its list; and both encodings of `mov cx, 12`
(41_mov.md R132, R133). -/
theorem witness_aliases :
    (let pairs := (Record.movRm .toRm .word .r1 (.reg .r3), Record.movRm .toReg .word .r3 (.reg .r1)) ::
       [ArithOp.add, .or, .adc, .sbb, .and, .sub, .xor, .cmp].map fun op =>
         (Record.arithRm op .toRm .word .r1 (.reg .r3), Record.arithRm op .toReg .word .r3 (.reg .r1))
     (Record.movRm .toRm .word .r1 (.reg .r3), Record.movRm .toReg .word .r3 (.reg .r1)) ∈ pairs ∧
     (Record.arithRm .cmp .toRm .word .r1 (.reg .r3), Record.arithRm .cmp .toReg .word .r3 (.reg .r1)) ∈ pairs) ∧
    decode [0xC7, 0xC1, 0x0C, 0x00] = .instr (.movRmImm (.reg .r1) (.word 12)) ∧
    decode [0xB9, 0x0C, 0x00] = .instr (.movRegImm .r1 (.word 12)) := by decide

end Sys2Proof.Tests
end

section
/-! SUPPORT. The state's statements (10_state.md): an ended run stands still and CYC never drops (R29, R31, R37), the two
views of a slot alias (R23), and the register table names the slots and halves (R22). -/

/-! ## Words bit by bit -/

namespace Sys2Proof

theorem joinBytes_and (a b c d : Byte) : joinBytes a b &&& joinBytes c d = joinBytes (a &&& c) (b &&& d) :=
  BitVec.and_append

theorem joinBytes_or (a b c d : Byte) : joinBytes a b ||| joinBytes c d = joinBytes (a ||| c) (b ||| d) :=
  BitVec.or_append

/-- A byte widened to a word is its low byte. -/
theorem setWidth_byte_eq_joinBytes (b : Byte) : b.setWidth 16 = joinBytes 0#8 b := by
  apply BitVec.eq_of_toNat_eq
  rw [joinBytes_toNat, BitVec.toNat_setWidth, BitVec.toNat_ofNat]
  omega

/-- A byte widened to a word and moved up by eight bits is its high byte. -/
theorem setWidth_byte_shiftLeft_eq_joinBytes (b : Byte) : b.setWidth 16 <<< 8 = joinBytes b 0#8 := by
  apply BitVec.eq_of_toNat_eq
  rw [joinBytes_toNat, BitVec.toNat_shiftLeft, BitVec.toNat_setWidth, BitVec.toNat_ofNat, Nat.shiftLeft_eq]
  omega

/-- The mask 0xFF00 keeps the high byte. -/
theorem and_highMask (v : Word) : v &&& 0xFF00 = joinBytes (highByte v) 0#8 :=
  calc v &&& 0xFF00 = joinBytes (highByte v) (lowByte v) &&& joinBytes (BitVec.allOnes 8) 0#8 := by
        rw [joinBytes_parts]; rfl
    _ = joinBytes (highByte v) 0#8 := by rw [joinBytes_and, BitVec.and_allOnes, BitVec.and_zero]

/-- The mask 0x00FF keeps the low byte. -/
theorem and_lowMask (v : Word) : v &&& 0x00FF = joinBytes 0#8 (lowByte v) :=
  calc v &&& 0x00FF = joinBytes (highByte v) (lowByte v) &&& joinBytes 0#8 (BitVec.allOnes 8) := by
        rw [joinBytes_parts]; rfl
    _ = joinBytes 0#8 (lowByte v) := by rw [joinBytes_and, BitVec.and_allOnes, BitVec.and_zero]

end Sys2Proof

namespace Sys2Proof.Machine

/-! ## Ended runs and CYC -/

/-- Of what a step can do, only standing still is left to a run that has ended (R31). -/
theorem step_of_ended {s : State} (hok : s.startOk = true) (hst : s.st ≠ .running) : step s = .next s := by
  obtain ⟨t, ht⟩ := step_next_of_startOk hok
  obtain ⟨-, ⟨-, rfl⟩ | ⟨hrun, -⟩ | ⟨_, hrun, -⟩ | ⟨_, _, hrun, -⟩⟩ := step_cases ht
  · exact ht
  all_goals exact absurd hrun hst

@[simp] theorem raiseFatal_cyc (e : FatalEvent) (s : State) : (raiseFatal e s).cyc = s.cyc := rfl

@[simp] theorem skipUnrecognised_cyc (b0 : Byte) (s : State) : (skipUnrecognised b0 s).cyc = s.cyc := rfl

@[simp] theorem endTest_cyc (s : State) : (endTest s).cyc = s.cyc := by
  obtain ⟨-, -, -, -, hcyc, -⟩ := endTest_frame s
  exact hcyc

/-- An instruction adds its cost to CYC, once (44_cycle_cost.md R190). -/
theorem exec_cyc {i : Instr} {s t : State} (h : exec i s = .next t) :
    ∃ taken, t.cyc = s.cyc + i.record.cost s.cycles taken := by
  obtain ⟨u, hu, -, hadv | ⟨rfl, -, d, rfl, hjump⟩⟩ := exec_cases i s
  · rw [hadv] at h
    cases h
    exact ⟨false, by simp [advance_eq, hu.cyc, hu.cycles]⟩
  · rw [hjump] at h
    cases h
    exact ⟨true, rfl⟩

theorem cyc_le_of_step {s t : State} (h : step s = .next t) : s.cyc ≤ t.cyc := by
  obtain ⟨-, ⟨-, rfl⟩ | ⟨-, -, rfl⟩ | ⟨b0, -, -, rfl⟩ | ⟨i, u, -, -, hu, rfl⟩⟩ := step_cases h
  · exact le_rfl
  · rw [raiseFatal_cyc]
  · rw [endTest_cyc, skipUnrecognised_cyc]
  · obtain ⟨taken, hcyc⟩ := exec_cyc hu
    rw [endTest_cyc, hcyc]
    exact Nat.le_add_right _ _

/-! ## Reading and writing registers as numbers and bits -/

theorem byteHalf_eq {c : RegCode} {k : Half} (h : (regLookup .byte c).half = some k) : byteHalf c = k := by
  simp [byteHalf, h]

theorem regRead_word (c : RegCode) (r : Regs) : regRead .word c r = r.get (regLookup .word c).index := rfl

theorem regRead_byte_low {c : RegCode} (h : (regLookup .byte c).half = some .low) (r : Regs) :
    (regRead .byte c r).toNat = (r.get (regLookup .byte c).index).toNat % 256 := by
  rw [← lowByte_toNat, regRead, byteHalf_eq h, Half.read]

theorem regRead_byte_high {c : RegCode} (h : (regLookup .byte c).half = some .high) (r : Regs) :
    (regRead .byte c r).toNat = (r.get (regLookup .byte c).index).toNat / 256 := by
  rw [← highByte_toNat, regRead, byteHalf_eq h, Half.read]

theorem regWrite_word_get (c : RegCode) (v : Word) (r : Regs) :
    (regWrite .word c v r).get (regLookup .word c).index = v :=
  regRead_regWrite_same .word c v r

/-- Writing the low half, as bits: the other half is masked in (R24). -/
theorem Half.low_write (v : Word) (b : Byte) : Half.low.write v b = (v &&& 0xFF00) ||| b.setWidth 16 := by
  rw [Half.write, and_highMask, setWidth_byte_eq_joinBytes, joinBytes_or, BitVec.or_zero, BitVec.zero_or]

/-- Writing the high half, as bits: the other half is masked in (R24). -/
theorem Half.high_write (v : Word) (b : Byte) :
    Half.high.write v b = (v &&& (0x00FF : Word)) ||| (b.setWidth 16 <<< 8) := by
  rw [Half.write, and_lowMask, setWidth_byte_shiftLeft_eq_joinBytes, joinBytes_or, BitVec.or_zero, BitVec.zero_or]

theorem regWrite_byte_low {c : RegCode} (h : (regLookup .byte c).half = some .low) (b : Byte) (r : Regs) :
    regWrite .byte c b r =
      r.set (regLookup .byte c).index ((r.get (regLookup .byte c).index &&& 0xFF00) ||| b.setWidth 16) := by
  rw [← Half.low_write, regWrite, byteHalf_eq h]

theorem regWrite_byte_high {c : RegCode} (h : (regLookup .byte c).half = some .high) (b : Byte) (r : Regs) :
    regWrite .byte c b r =
      r.set (regLookup .byte c).index
        ((r.get (regLookup .byte c).index &&& (0x00FF : Word)) ||| (b.setWidth 16 <<< 8)) := by
  rw [← Half.high_write, regWrite, byteHalf_eq h]

/-- A function of the register code, tabulated over the eight field values in order (R22). -/
theorem map_regCode {α : Type} (f : RegCode → α) :
    [0, 1, 2, 3, 4, 5, 6, 7].map (fun k => f (.ofCode k)) =
      [f .r0, f .r1, f .r2, f .r3, f .r4, f .r5, f .r6, f .r7] := rfl

/-! ## The statements -/

/-- Settles O30, from the case analysis of a step: an ended run has one case left, and no case lowers CYC. -/
theorem endedRunsStandStillAndCyclesNeverDrop : Obligations.EndedRunsStandStillAndCyclesNeverDrop :=
  ⟨fun _ hok hst => step_of_ended hok hst, fun _ _ h => cyc_le_of_step h⟩

/-- Settles O7: each view is a function of the slot's number, and a word write puts its value in the slot. -/
theorem byteAndWordViewsAlias : Obligations.ByteAndWordViewsAlias := by
  intro r c b v
  refine ⟨regRead_word c r, fun h => regRead_byte_low h r, fun h => regRead_byte_high h r, ?_, ?_⟩
  · intro hslot h
    rw [regRead_byte_low h, hslot, regWrite_word_get]
  · intro hslot h
    rw [regRead_byte_high h, hslot, regWrite_word_get]

/-- Settles O44: the word registers and the names are the table itself; each byte register goes through its half. -/
theorem registerTableNamesTheSlots : Obligations.RegisterTableNamesTheSlots := by
  intro r v b
  refine ⟨rfl, ?byteReads, rfl, ?byteWrites, rfl, rfl⟩
  case byteReads =>
    simp (disch := decide) only [map_regCode fun c => (regRead .byte c r).toNat, regRead_byte_low, regRead_byte_high]
    rfl
  case byteWrites =>
    simp (disch := decide) only [map_regCode fun c => regWrite .byte c b r, regWrite_byte_low, regWrite_byte_high]
    rfl

end Sys2Proof.Machine
end

section
/-! SUPPORT. The memory's statements (20_memory.md): what one store leaves at each address (R57), and that the program,
its length and the cycle table outlive every step (R64; 00_scope.md R6). -/

namespace Sys2Proof.Machine

/-! ## Loads and stores as numbers -/

theorem memRead_byte (a : Word) (m : Memory) : memRead .byte a m = m.read a.toNat := rfl

theorem memRead_word_toNat (a : Word) (m : Memory) :
    (memRead .word a m).toNat = 256 * (m.read ((a.toNat + 1) % 65536)).toNat + (m.read a.toNat).toNat := by
  rw [memRead, joinBytes_toNat, Word.succ_toNat]

theorem memWrite_byte_read (a : Word) (v : Byte) (m : Memory) (b : Nat) :
    (memWrite .byte a v m).read b = if b = a.toNat then v else m.read b := by
  rw [memWrite, Memory.read_write, if_congr eq_comm rfl rfl]

/-- The two addresses of a word differ, the wrap at 0xFFFF included, so its high byte does not overwrite its low one. -/
theorem memWrite_word_read (a v : Word) (m : Memory) (b : Nat) :
    (memWrite .word a v m).read b =
      if b = a.toNat then lowByte v else if b = (a + 1).toNat then highByte v else m.read b := by
  have hne := Word.succ_toNat_ne a
  simp only [memWrite, Memory.read_write]
  by_cases hlow : b = a.toNat
  · rw [if_neg (hlow ▸ hne.symm), if_pos hlow.symm, if_pos hlow]
  · rw [if_neg (Ne.symm hlow), if_neg hlow, if_congr eq_comm rfl rfl]

/-! ## The program outlives every step -/

@[simp] theorem raiseFatal_ibuf (e : FatalEvent) (s : State) : (raiseFatal e s).ibuf = s.ibuf := rfl
@[simp] theorem raiseFatal_cycles (e : FatalEvent) (s : State) : (raiseFatal e s).cycles = s.cycles := rfl

@[simp] theorem skipUnrecognised_ibuf (b0 : Byte) (s : State) : (skipUnrecognised b0 s).ibuf = s.ibuf := rfl
@[simp] theorem skipUnrecognised_cycles (b0 : Byte) (s : State) : (skipUnrecognised b0 s).cycles = s.cycles := rfl

@[simp] theorem endTest_ibuf (s : State) : (endTest s).ibuf = s.ibuf := by
  obtain ⟨-, -, -, -, -, -, hibuf, -⟩ := endTest_frame s
  exact hibuf

@[simp] theorem endTest_cycles (s : State) : (endTest s).cycles = s.cycles := by
  obtain ⟨-, -, -, -, -, -, -, hcycles⟩ := endTest_frame s
  exact hcycles

theorem program_of_step {s t : State} (h : step s = .next t) : t.ibuf = s.ibuf ∧ t.cycles = s.cycles := by
  obtain ⟨-, ⟨-, rfl⟩ | ⟨-, -, rfl⟩ | ⟨b0, -, -, rfl⟩ | ⟨i, u, -, -, hu, rfl⟩⟩ := step_cases h
  · exact ⟨rfl, rfl⟩
  · exact ⟨raiseFatal_ibuf _ s, raiseFatal_cycles _ s⟩
  · simp
  · obtain ⟨⟨-, -, hibuf, hcycles⟩, -⟩ := exec_control hu
    simp [hibuf, hcycles]

theorem State.len_of_ibuf {s t : State} (h : t.ibuf = s.ibuf) : t.len = s.len := congrArg List.length h

/-- The head of a step looks at IBUF, PC and ST, and at nothing else of the state (R64; 46_step.md R230). -/
theorem fetch_congr {s t : State} (hibuf : t.ibuf = s.ibuf) (hpc : t.pc = s.pc) (hst : t.st = s.st) :
    fetch t = fetch s := by
  have hok : t.startOk = s.startOk := by rw [State.startOk, State.startOk, State.len_of_ibuf hibuf]
  have hbytes : t.bytesAtPc = s.bytesAtPc := by rw [State.bytesAtPc, State.bytesAtPc, hibuf, hpc]
  rw [fetch, fetch, hok, hst, hbytes]

/-! ## The statements -/

/-- Settles O35: no case of a step writes IBUF or the cycle table, LEN is the length of IBUF, and replacing data memory
changes none of the three fields a fetch looks at. -/
theorem noStepChangesTheProgram : Obligations.NoStepChangesTheProgram := by
  refine ⟨fun s t h => ?program, fun s m => ?fetch⟩
  case program =>
    obtain ⟨hibuf, hcycles⟩ := program_of_step h
    exact ⟨hibuf, State.len_of_ibuf hibuf, hcycles⟩
  case fetch =>
    exact fetch_congr (State.withMem_ibuf s m) (State.withMem_pc s m) (State.withMem_st s m)

/-- Settles O9: each access is its one or two byte accesses, read as numbers. -/
theorem wordAccessIsTwoByteAccesses : Obligations.WordAccessIsTwoByteAccesses := by
  intro m addr v b a
  refine ⟨memRead_byte addr m, memRead_word_toNat addr m, memWrite_byte_read addr b m a, ?wordStore⟩
  case wordStore =>
    rw [memWrite_word_read, apply_ite BitVec.toNat, apply_ite BitVec.toNat, lowByte_toNat, highByte_toNat,
      Word.succ_toNat]

end Sys2Proof.Machine
end

section
/-! SUPPORT. The encoding's statements (30_encoding.md): the first-byte map (R92, R81), the addressing byte (R72, R73),
and what the aliased encodings share (R87). -/

namespace Sys2Proof

/-! ## How many bytes a reader needs -/

/-- Given `n` bytes, the reader succeeds, and it takes at most `n` of them. -/
def NeedsAtMost {α : Type} (n : Nat) (f : List Byte → Option (α × List Byte)) : Prop :=
  ∀ bs, n ≤ bs.length → ∃ v rest, f bs = some (v, rest) ∧ bs.length ≤ rest.length + n

theorem NeedsAtMost.mono {α : Type} {m n : Nat} {f : List Byte → Option (α × List Byte)} (h : NeedsAtMost m f)
    (hmn : m ≤ n) : NeedsAtMost n f := by
  intro bs hbs
  obtain ⟨v, rest, hf, hlen⟩ := h bs (hmn.trans hbs)
  exact ⟨v, rest, hf, hlen.trans (Nat.add_le_add_left hmn _)⟩

theorem NeedsAtMost.map {α β : Type} {n : Nat} {f : List Byte → Option (α × List Byte)} (h : NeedsAtMost n f)
    (g : α → β) : NeedsAtMost n fun bs => (f bs).map fun (v, rest) => (g v, rest) := by
  intro bs hbs
  obtain ⟨v, rest, hf, hlen⟩ := h bs hbs
  exact ⟨g v, rest, by simp [hf], hlen⟩

theorem takeByte_needs : NeedsAtMost 1 takeByte
  | v :: rest, _ => ⟨v, rest, rfl, le_rfl⟩

theorem takeWord_needs : NeedsAtMost 2 takeWord
  | lo :: hi :: rest, _ => ⟨joinBytes hi lo, rest, rfl, le_rfl⟩

theorem takeRm_needs (b1 : Byte) : NeedsAtMost 2 (takeRm b1) := by
  unfold takeRm
  cases b1.getLsbD 7 <;> cases b1.getLsbD 6
  · dsimp only
    split_ifs
    · exact takeWord_needs.map _
    · exact fun bs _ => ⟨_, bs, rfl, Nat.le_add_right _ _⟩
  · exact (takeByte_needs.map _).mono one_le_two
  · exact takeWord_needs.map _
  · exact fun bs _ => ⟨_, bs, rfl, Nat.le_add_right _ _⟩

theorem takeImm_needs (w : Width) : NeedsAtMost 2 (takeImm w) := by
  cases w
  · exact (takeByte_needs.map _).mono one_le_two
  · exact takeWord_needs.map _

theorem takeImmS_needs (s : Bool) (w : Width) : NeedsAtMost 2 (takeImmS s w) := by
  cases w
  · exact (takeByte_needs.map _).mono one_le_two
  · cases s
    · exact takeWord_needs.map _
    · exact (takeByte_needs.map _).mono one_le_two

/-- Five bytes after the first are enough for every class: an addressing byte, a displacement and an immediate (R89). -/
theorem takeRecord_of_five_le (oc : Opcode) {bs : List Byte} (h : 5 ≤ bs.length) :
    ∃ r, takeRecord oc bs = some r := by
  obtain ⟨b1, rest, hb1, hrest⟩ := takeByte_needs bs (by omega)
  obtain ⟨rm, more, hrm, hmore⟩ := takeRm_needs b1 rest (by omega)
  cases oc with
  | a d w => simp [takeRecord, hb1, hrm]
  | b w =>
    obtain ⟨imm, _, himm, -⟩ := takeImm_needs w more (by omega)
    simp [takeRecord, hb1, hrm, himm]
  | c w reg =>
    obtain ⟨imm, _, himm, -⟩ := takeImm_needs w bs (by omega)
    simp [takeRecord, himm]
  | d w =>
    obtain ⟨addr, _, haddr, -⟩ := takeWord_needs bs (by omega)
    simp [takeRecord, haddr]
  | e op d w => simp [takeRecord, hb1, hrm]
  | f s w =>
    obtain ⟨imm, _, himm, -⟩ := takeImmS_needs s w more (by omega)
    simp [takeRecord, hb1, hrm, himm]
  | g op w =>
    obtain ⟨imm, _, himm, -⟩ := takeImm_needs w bs (by omega)
    simp [takeRecord, himm]
  | h cc => simp [takeRecord, hb1]
  | i k => simp [takeRecord, hb1]

/-! ## Decoding once the first byte is classified -/

theorem decode_instr_iff {b0 : Byte} {oc : Opcode} (hc : classify b0 = some oc) {bs : List Byte} {i : Instr} :
    decode (b0 :: bs) = .instr i ↔ ∃ r, takeRecord oc bs = some r ∧ r.toInstr = i := by
  cases hr : takeRecord oc bs <;> simp [decode, hc, hr]

theorem decode_ne_truncated {bs : List Byte} (h : 6 ≤ bs.length) : decode bs ≠ .truncated := by
  match bs, h with
  | b0 :: rest, h =>
    cases hc : classify b0 with
    | none => simp [decode, hc]
    | some oc =>
      obtain ⟨r, hr⟩ := takeRecord_of_five_le oc (Nat.le_of_succ_le_succ h)
      simp [decode, hc, hr]

/-! ## The record a class gives -/

theorem takeRecord_a_iff {d : Dir} {w : Width} {b1 : Byte} {bs : List Byte} {r : Record} :
    takeRecord (.a d w) (b1 :: bs) = some r ↔
      ∃ rm more, takeRm b1 bs = some (rm, more) ∧ r = .movRm d w (.ofCode (b1.extractLsb' 3 3)) rm := by
  simp [takeRecord, takeByte, Option.bind_eq_some_iff, eq_comm (a := r)]

theorem takeRecord_b_iff {w : Width} {b1 : Byte} {bs : List Byte} {r : Record} :
    takeRecord (.b w) (b1 :: bs) = some r ↔
      ∃ rm more, takeRm b1 bs = some (rm, more) ∧
        ∃ imm rest, takeImm w more = some (imm, rest) ∧ r = .movRmImm rm imm := by
  simp [takeRecord, takeByte, Option.bind_eq_some_iff, eq_comm (a := r)]

theorem takeRecord_c_iff {w : Width} {reg : RegCode} {bs : List Byte} {r : Record} :
    takeRecord (.c w reg) bs = some r ↔ ∃ imm rest, takeImm w bs = some (imm, rest) ∧ r = .movRegImm reg imm := by
  simp [takeRecord, Option.bind_eq_some_iff, eq_comm (a := r)]

theorem takeRecord_d_iff {w : Width} {bs : List Byte} {r : Record} :
    takeRecord (.d w) bs = some r ↔ ∃ addr rest, takeWord bs = some (addr, rest) ∧ r = .movAcc w addr := by
  simp [takeRecord, Option.bind_eq_some_iff, eq_comm (a := r)]

theorem takeRecord_e_iff {op : ArithOp} {d : Dir} {w : Width} {b1 : Byte} {bs : List Byte} {r : Record} :
    takeRecord (.e op d w) (b1 :: bs) = some r ↔
      ∃ rm more, takeRm b1 bs = some (rm, more) ∧ r = .arithRm op d w (.ofCode (b1.extractLsb' 3 3)) rm := by
  simp [takeRecord, takeByte, Option.bind_eq_some_iff, eq_comm (a := r)]

theorem takeRecord_f_iff {s : Bool} {w : Width} {b1 : Byte} {bs : List Byte} {r : Record} :
    takeRecord (.f s w) (b1 :: bs) = some r ↔
      ∃ rm more, takeRm b1 bs = some (rm, more) ∧
        ∃ imm rest, takeImmS s w more = some (imm, rest) ∧
          r = .arithRmImm (.ofCode (b1.extractLsb' 3 3)) rm imm := by
  simp [takeRecord, takeByte, Option.bind_eq_some_iff, eq_comm (a := r)]

theorem takeRecord_g_iff {op : ArithOp} {w : Width} {bs : List Byte} {r : Record} :
    takeRecord (.g op w) bs = some r ↔ ∃ imm rest, takeImm w bs = some (imm, rest) ∧ r = .arithAcc op imm := by
  simp [takeRecord, Option.bind_eq_some_iff, eq_comm (a := r)]

/-! ## The first byte's masks -/

theorem classify_a {b0 : Byte} (h : b0 &&& 0xFC = 0x88) :
    classify b0 = some (.a (.ofBit (b0.getLsbD 1)) (.ofBit (b0.getLsbD 0))) := if_pos h

theorem classify_b : ∀ {b0 : Byte}, b0 &&& 0xFE = 0xC6 →
    classify b0 = some (.b (.ofBit (b0.getLsbD 0))) := by decide

theorem classify_c : ∀ {b0 : Byte}, b0 &&& 0xF0 = 0xB0 →
    classify b0 = some (.c (.ofBit (b0.getLsbD 3)) (.ofCode (b0.extractLsb' 0 3))) := by decide

theorem classify_d : ∀ {b0 : Byte}, b0 &&& 0xFE = 0xA0 →
    classify b0 = some (.d (.ofBit (b0.getLsbD 0))) := by decide

/-- With `op` in b0[5:3]; the bytes of R92 are those with d and w both 0. -/
theorem classify_e (op : ArithOp) : ∀ {b0 : Byte}, b0 &&& 0xFC = (Opcode.e op .toRm .byte).byte →
    classify b0 = some (.e op (.ofBit (b0.getLsbD 1)) (.ofBit (b0.getLsbD 0))) := by
  cases op <;> decide

theorem classify_f : ∀ {b0 : Byte}, b0 &&& 0xFC = 0x80 →
    classify b0 = some (.f (b0.getLsbD 1) (.ofBit (b0.getLsbD 0))) := by decide

theorem classify_g (op : ArithOp) : ∀ {b0 : Byte}, b0 &&& 0xFE = (Opcode.g op .byte).byte →
    classify b0 = some (.g op (.ofBit (b0.getLsbD 0))) := by
  cases op <;> decide

/-- The middle field of an addressing byte (R72), seen through its mask. -/
theorem middle_of_mask {b1 : Byte} {c : BitVec 3} (h : b1 &&& 0x38 = threeFields 0 c 0) :
    b1.extractLsb' 3 3 = c := by
  have hmask : ∀ b : Byte, (b &&& 0x38).extractLsb' 3 3 = b.extractLsb' 3 3 := by decide
  obtain ⟨-, hmiddle, -⟩ := threeFields_fields 0 c 0
  rw [← hmask, h, hmiddle]

/-! ## The first-byte map, class by class (R92) -/

section
variable {b0 b1 : Byte} {bs : List Byte} {i : Instr}

theorem decode_class_a (hb : b0 &&& 0xFC = 0x88) (h : decode (b0 :: b1 :: bs) = .instr i) :
    ∃ d w reg rm, i = .movRm d w reg rm := by
  obtain ⟨r, hr, rfl⟩ := (decode_instr_iff (classify_a hb)).1 h
  obtain ⟨rm, _, -, rfl⟩ := takeRecord_a_iff.1 hr
  exact ⟨_, _, _, rm, rfl⟩

theorem decode_class_b (hb : b0 &&& 0xFE = 0xC6) (h : decode (b0 :: b1 :: bs) = .instr i) :
    ∃ rm imm, i = .movRmImm rm imm := by
  obtain ⟨r, hr, rfl⟩ := (decode_instr_iff (classify_b hb)).1 h
  obtain ⟨rm, _, -, imm, _, -, rfl⟩ := takeRecord_b_iff.1 hr
  exact ⟨rm, imm, rfl⟩

theorem decode_class_c (hb : b0 &&& 0xF0 = 0xB0) (h : decode (b0 :: bs) = .instr i) :
    ∃ reg imm, i = .movRegImm reg imm := by
  obtain ⟨r, hr, rfl⟩ := (decode_instr_iff (classify_c hb)).1 h
  obtain ⟨imm, _, -, rfl⟩ := takeRecord_c_iff.1 hr
  exact ⟨_, imm, rfl⟩

theorem decode_class_d (hb : b0 &&& 0xFE = 0xA0) (h : decode (b0 :: bs) = .instr i) : ∃ w a, i = .movAcc w a := by
  obtain ⟨r, hr, rfl⟩ := (decode_instr_iff (classify_d hb)).1 h
  obtain ⟨addr, _, -, rfl⟩ := takeRecord_d_iff.1 hr
  exact ⟨_, addr, rfl⟩

theorem decode_class_e (op : ArithOp) (h : decode (b0 :: b1 :: bs) = .instr i)
    (hb : b0 &&& 0xFC = (Opcode.e op .toRm .byte).byte) :
    ∃ d w reg rm, i = (Record.arithRm op d w reg rm).toInstr := by
  obtain ⟨r, hr, rfl⟩ := (decode_instr_iff (classify_e op hb)).1 h
  obtain ⟨rm, _, -, rfl⟩ := takeRecord_e_iff.1 hr
  exact ⟨_, _, _, rm, rfl⟩

theorem decode_class_f (op : ArithOp) (h : decode (b0 :: b1 :: bs) = .instr i) (hb : b0 &&& 0xFC = 0x80)
    (hb1 : b1 &&& 0x38 = threeFields 0 op.code 0) : ∃ rm imm, i = (Record.arithRmImm op rm imm).toInstr := by
  obtain ⟨r, hr, rfl⟩ := (decode_instr_iff (classify_f hb)).1 h
  obtain ⟨rm, _, -, imm, _, -, rfl⟩ := takeRecord_f_iff.1 hr
  rw [middle_of_mask hb1, ArithOp.ofCode_code]
  exact ⟨rm, imm, rfl⟩

theorem decode_class_g (op : ArithOp) (h : decode (b0 :: bs) = .instr i)
    (hb : b0 &&& 0xFE = (Opcode.g op .byte).byte) : ∃ imm, i = (Record.arithAcc op imm).toInstr := by
  obtain ⟨r, hr, rfl⟩ := (decode_instr_iff (classify_g op hb)).1 h
  obtain ⟨imm, _, -, rfl⟩ := takeRecord_g_iff.1 hr
  exact ⟨imm, rfl⟩

end

/-- A conditional jump is its two bytes, whatever follows (R83). -/
theorem decode_jcc (cc : Cond) (d : Byte) (rest : List Byte) :
    decode ((Opcode.h cc).byte :: d :: rest) = .instr (Record.jcc cc d).toInstr :=
  (decode_instr_iff (classify_byte _)).2 ⟨_, rfl, rfl⟩

/-- A loop instruction is its two bytes, whatever follows (R84). -/
theorem decode_loopj (k : LoopKind) (d : Byte) (rest : List Byte) :
    decode ((Opcode.i k).byte :: d :: rest) = .instr (Record.loopj k d).toInstr :=
  (decode_instr_iff (classify_byte _)).2 ⟨_, rfl, rfl⟩

/-! ## The operand that mod and rm name (R73, R112, R114) -/

theorem threeFields_and_modRm : ∀ md mid rm, threeFields md mid rm &&& 0xC7 = threeFields md 0 rm := by decide

theorem threeFields_inj : ∀ {md md' : BitVec 2} {rm rm' : BitVec 3},
    threeFields md 0 rm = threeFields md' 0 rm' → md = md' ∧ rm = rm' := by decide

/-- The mod and rm fields of an addressing byte, seen through their mask. -/
theorem modRm_of_mask {mid : BitVec 3} {rm : Rm} {md : BitVec 2} {c : BitVec 3}
    (h : addrByte mid rm &&& 0xC7 = threeFields md 0 c) : rm.modCode = md ∧ rm.rmCode = c := by
  rw [addrByte_eq, threeFields_and_modRm] at h
  exact threeFields_inj h

theorem RegCode.code_inj {x y : RegCode} (h : x.code = y.code) : x = y := by
  rw [← RegCode.ofCode_code x, h, RegCode.ofCode_code]

theorem Base.code_inj {x y : Base} (h : x.code = y.code) : x = y := by
  rw [← Base.ofCode_code x, h, Base.ofCode_code]

theorem Rm.eq_reg {rm : Rm} {c : RegCode} (hmod : rm.modCode = 3) (hrm : rm.rmCode = c.code) : rm = .reg c := by
  cases rm with
  | reg x => rw [RegCode.code_inj hrm]
  | _ => cases hmod

theorem Rm.eq_base {rm : Rm} {b : Base} (hb : b ≠ .bp) (hmod : rm.modCode = 0) (hrm : rm.rmCode = b.code) :
    rm = .base b := by
  cases rm with
  | base x => rw [Base.code_inj hrm]
  | direct a => exact absurd (Base.code_inj (x := .bp) hrm).symm hb
  | _ => cases hmod

theorem Rm.eq_direct {rm : Rm} (hwf : rm.wf = true) (hmod : rm.modCode = 0) (hrm : rm.rmCode = 6) :
    ∃ a, rm = .direct a := by
  cases rm with
  | base x => cases Base.code_inj (y := .bp) hrm; cases hwf
  | direct a => exact ⟨a, rfl⟩
  | _ => cases hmod

theorem Rm.eq_disp8 {rm : Rm} {b : Base} (hmod : rm.modCode = 1) (hrm : rm.rmCode = b.code) :
    ∃ d, rm = .disp8 b d := by
  cases rm with
  | disp8 x d => exact ⟨d, by rw [Base.code_inj hrm]⟩
  | _ => cases hmod

theorem Rm.eq_disp16 {rm : Rm} {b : Base} (hmod : rm.modCode = 2) (hrm : rm.rmCode = b.code) :
    ∃ d, rm = .disp16 b d := by
  cases rm with
  | disp16 x d => exact ⟨d, by rw [Base.code_inj hrm]⟩
  | _ => cases hmod

/-- `8B` is the word load of class (a): the middle field is the register, and mod, rm and the displacement bytes are
the operand's (R76, R72, R73). -/
theorem decode_8B {b1 : Byte} {bs : List Byte} {d : Dir} {w : Width} {reg : RegCode} {rm : Rm}
    (h : decode (0x8B :: b1 :: bs) = .instr (.movRm d w reg rm)) :
    d = .toReg ∧ w = .word ∧ reg = .ofCode (b1.extractLsb' 3 3) ∧ ∃ more, takeRm b1 bs = some (rm, more) := by
  obtain ⟨r, hr, hi⟩ := (decode_instr_iff (classify_byte (.a .toReg .word))).1 h
  obtain ⟨rm', more, hrm, rfl⟩ := takeRecord_a_iff.1 hr
  cases hi
  exact ⟨rfl, rfl, rfl, more, hrm⟩

/-! ## The statements on the decoder -/

/-- Settles O45: six bytes are enough for every reader; each mask fixes the class, and the class its record. -/
theorem firstByteMapNamesTheInstruction : Obligations.FirstByteMapNamesTheInstruction := by
  refine ⟨fun bs h => decode_ne_truncated h, fun b0 b1 rest i h => ?map, fun d rest => ?jumps⟩
  case map =>
    exact ⟨(decode_class_a · h), (decode_class_b · h), (decode_class_c · h), (decode_class_d · h),
      decode_class_e .add h, decode_class_g .add h, decode_class_e .or h, decode_class_g .or h,
      decode_class_e .adc h, decode_class_g .adc h, decode_class_e .sbb h, decode_class_g .sbb h,
      decode_class_e .and h, decode_class_g .and h, decode_class_e .sub h, decode_class_g .sub h,
      decode_class_e .xor h, decode_class_g .xor h, decode_class_e .cmp h, decode_class_g .cmp h,
      fun hb => ⟨decode_class_f .add h hb, decode_class_f .or h hb, decode_class_f .adc h hb,
        decode_class_f .sbb h hb, decode_class_f .and h hb, decode_class_f .sub h hb, decode_class_f .xor h hb,
        decode_class_f .cmp h hb⟩⟩
  case jumps =>
    exact ⟨decode_jcc .o d rest, decode_jcc .no d rest, decode_jcc .b d rest, decode_jcc .nb d rest,
      decode_jcc .z d rest, decode_jcc .nz d rest, decode_jcc .be d rest, decode_jcc .a d rest,
      decode_jcc .s d rest, decode_jcc .ns d rest, decode_jcc .p d rest, decode_jcc .np d rest,
      decode_jcc .l d rest, decode_jcc .nl d rest, decode_jcc .le d rest, decode_jcc .g d rest,
      decode_loopj .loopnz d rest, decode_loopj .loopz d rest, decode_loopj .loop d rest, decode_loopj .jcxz d rest⟩

/-- Settles O46: the bytes are the addressing byte and the displacement of the operand read, whose mod and rm fields the
mask shows, and those fields leave one form. -/
theorem addressingByteNamesTheOperands : Obligations.AddressingByteNamesTheOperands := by
  intro b1 rest d w reg rm h
  obtain ⟨rfl, rfl, rfl, more, hrm⟩ := decode_8B h
  obtain ⟨hwf, haddr, rfl⟩ := takeRm_eq hrm
  have hfields : ∀ {md c}, b1 &&& 0xC7 = threeFields md 0 c → rm.modCode = md ∧ rm.rmCode = c := fun hb =>
    modRm_of_mask (haddr ▸ hb)
  refine ⟨rfl, rfl, ?register, ?mode3, ?mode0, ?direct, ?mode1, ?mode2⟩
  case register =>
    intro p hp hb
    have hbyte : p.1 = threeFields 0 p.2.code 0 := by clear hb; revert p; decide
    rw [middle_of_mask (hb.trans hbyte), RegCode.ofCode_code]
  case mode3 =>
    intro p hp hb
    have hbyte : p.1 = threeFields 3 0 p.2.code := by clear hb; revert p; decide
    obtain ⟨hmod, hcode⟩ := hfields (hb.trans hbyte)
    exact Rm.eq_reg hmod hcode
  case mode0 =>
    intro p hp hb
    obtain ⟨hbyte, hbp⟩ : p.1 = threeFields 0 0 p.2.code ∧ p.2 ≠ .bp := by clear hb; revert p; decide
    obtain ⟨hmod, hcode⟩ := hfields (hb.trans hbyte)
    exact Rm.eq_base hbp hmod hcode
  case direct =>
    intro hb
    obtain ⟨hmod, hcode⟩ := hfields (md := 0) (c := 6) hb
    obtain ⟨a, rfl⟩ := Rm.eq_direct hwf hmod hcode
    exact ⟨_, _, more, rfl, congrArg Rm.direct (joinBytes_parts a).symm⟩
  case mode1 =>
    intro p hp hb
    have hbyte : p.1 = threeFields 1 0 p.2.code := by clear hb; revert p; decide
    obtain ⟨hmod, hcode⟩ := hfields (hb.trans hbyte)
    obtain ⟨d8, rfl⟩ := Rm.eq_disp8 hmod hcode
    exact ⟨d8, more, rfl, rfl⟩
  case mode2 =>
    intro p hp hb
    have hbyte : p.1 = threeFields 2 0 p.2.code := by clear hb; revert p; decide
    obtain ⟨hmod, hcode⟩ := hfields (hb.trans hbyte)
    obtain ⟨d16, rfl⟩ := Rm.eq_disp16 hmod hcode
    exact ⟨_, _, more, rfl, congrArg (Rm.disp16 p.2) (joinBytes_parts d16).symm⟩

end Sys2Proof

namespace Sys2Proof.Machine

/-! ## Aliased encodings (R87) -/

/-- Ending with one record or another of the same cost leaves the same registers, memory, flags and CYC. -/
theorem advance_of_cost {r q : Record} {u : State} (hcost : r.cost u.cycles false = q.cost u.cycles false) :
    (advance r u).regs = (advance q u).regs ∧ (advance r u).mem = (advance q u).mem ∧
    FlagsKept (advance q u) (advance r u) ∧ (advance r u).cyc = (advance q u).cyc :=
  ⟨rfl, rfl, ⟨rfl, rfl⟩, congrArg (u.cyc + ·) hcost⟩

/-- With records of one length too, it leaves the same PC: all that is left to differ is the trace. -/
theorem advance_of_cost_len {r q : Record} {u : State} (hcost : r.cost u.cycles false = q.cost u.cycles false)
    (hlen : r.len = q.len) :
    (advance r u).regs = (advance q u).regs ∧ (advance r u).mem = (advance q u).mem ∧
    FlagsKept (advance q u) (advance r u) ∧ (advance r u).pc = (advance q u).pc ∧
    (advance r u).cyc = (advance q u).cyc := by
  obtain ⟨hregs, hmem, hflags, hcyc⟩ := advance_of_cost hcost
  exact ⟨hregs, hmem, hflags, by simp [advance_eq, fallthrough, hlen], hcyc⟩

/-- Either direction of a move between two registers writes and reads the same two places (R71). -/
theorem exec_movRm_alias (w : Width) (x y : RegCode) (s : State) :
    ∃ u, exec (.movRm .toRm w x (.reg y)) s = .next (advance (.movRm .toRm w x (.reg y)) u) ∧
      exec (.movRm .toReg w y (.reg x)) s = .next (advance (.movRm .toReg w y (.reg x)) u) := ⟨_, rfl, rfl⟩

/-- Either direction of an operation between two registers writes and reads the same two places (R142). -/
theorem exec_arithRm_alias (op : ArithOp) (w : Width) (x y : RegCode) (s : State) :
    ∃ u, exec (Record.arithRm op .toRm w x (.reg y)).toInstr s =
        .next (advance (.arithRm op .toRm w x (.reg y)) u) ∧
      exec (Record.arithRm op .toReg w y (.reg x)).toInstr s =
        .next (advance (.arithRm op .toReg w y (.reg x)) u) := by
  cases op <;> exact ⟨_, rfl, rfl⟩

/-- Classes (b) with mod 3 and (c) write the same value to the same register (41_mov.md R132, R133). -/
theorem exec_movImm_alias (reg : RegCode) (imm : Imm) (s : State) :
    ∃ u, exec (.movRmImm (.reg reg) imm) s = .next (advance (.movRmImm (.reg reg) imm) u) ∧
      exec (.movRegImm reg imm) s = .next (advance (.movRegImm reg imm) u) := ⟨_, rfl, rfl⟩

/-- Settles O47: each pair has one effect and one cost; the first nine have one length too. -/
theorem aliasedEncodingsDoTheSame : Obligations.AliasedEncodingsDoTheSame := by
  refine ⟨fun w x y s p hp => ?registers, fun reg imm k s => ⟨?length, ?row, ?effect⟩⟩
  case registers =>
    obtain rfl | hop := List.mem_cons.1 hp
    · obtain ⟨u, hx, hy⟩ := exec_movRm_alias w x y s
      exact ⟨_, _, hx, hy, advance_of_cost_len rfl rfl⟩
    · obtain ⟨op, -, rfl⟩ := List.mem_map.1 hop
      obtain ⟨u, hx, hy⟩ := exec_arithRm_alias op w x y s
      exact ⟨_, _, hx, hy, advance_of_cost_len rfl rfl⟩
  case length => exact Nat.add_right_comm 1 1 imm.len
  case row => exact CostRow.noConfusion
  case effect =>
    obtain ⟨u, hb, hc⟩ := exec_movImm_alias reg imm s
    exact ⟨_, _, hb, hc, advance_of_cost rfl⟩

end Sys2Proof.Machine
end

section
/-! SUPPORT. The operands' statements (40_operands.md): the address a memory form resolves to, as a number (R111 to
R115), and that a load takes its address from the registers as they were (R120). -/

namespace Sys2Proof.Machine

/-! ## Addresses as numbers -/

/-- A base and a displacement, narrowed once: the displacement counts only modulo 65536, so its signed and its unsigned
reading give one address (R113, R115). -/
theorem Base.addr_add_toNat (b : Base) (r : Regs) {d : Word} {y : Int} (hd : (d.toNat : Int) % 65536 = y % 65536) :
    ((Base.addr b r + d).toNat : Int) = (baseSum b r + y) % 65536 := by
  have hb := Base.addr_toNat b r
  rw [BitVec.toNat_add]
  omega

theorem resolve_of_exactAddress {rm : Rm} {r : Regs} {x : Int} (h : exactAddress rm r = some x) :
    ∃ a : Word, resolve rm r = .mem a ∧ (a.toNat : Int) = x % 65536 := by
  cases rm with
  | reg c => cases h
  | base b =>
    cases h
    exact ⟨_, rfl, Base.addr_toNat b r⟩
  | direct a =>
    cases h
    exact ⟨a, rfl, (Int.emod_eq_of_lt (Int.natCast_nonneg _) (mod_cast a.isLt)).symm⟩
  | disp8 b d =>
    cases h
    exact ⟨_, rfl, Base.addr_add_toNat b r (sext16_emod d)⟩
  | disp16 b d =>
    cases h
    exact ⟨_, rfl, Base.addr_add_toNat b r (Word.toNat_emod_toInt d)⟩

/-! ## A load from memory -/

/-- Loading a register from a memory operand (41_mov.md R131): the address and the bytes at it are those of the state
before the instruction, whichever register is written. -/
theorem exec_load_regs {rm : Rm} {s : State} {a : Word} (h : resolve rm s.regs = .mem a) (w : Width) (c : RegCode) :
    ∃ t, exec (.movRm .toReg w c rm) s = .next t ∧ t.regs = regWrite w c (memRead w a s.mem) s.regs :=
  ⟨_, rfl, by rw [advance_eq, retire_regs, destPlace, srcPlace, h, writePlace_reg_regs, readPlace]⟩

/-! ## The statements -/

/-- Settles O10: mode 3 resolves by definition, each memory form through the base formula as a number. -/
theorem resolverGivesTheReducedExactAddress : Obligations.ResolverGivesTheReducedExactAddress :=
  fun _ _ => ⟨fun _ hreg => hreg ▸ rfl, fun _ hx => resolve_of_exactAddress hx⟩

/-- Settles O12: the operand resolves in the registers before the load, and the slot written holds the word read at
that address. -/
theorem loadUsesTheOldBase : Obligations.LoadUsesTheOldBase := by
  intro b disp code s
  obtain ⟨a, hmem, ha⟩ := resolve_of_exactAddress (rm := .disp16 b disp) (r := s.regs) rfl
  obtain ⟨t, hexec, hregs⟩ := exec_load_regs hmem .word code
  refine ⟨t, hexec, a, ha, ?loaded⟩
  rw [hregs, regWrite_word_get, memRead_word_toNat]

end Sys2Proof.Machine
end

section
/-! SUPPORT. MOV's statement (41_mov.md R130): each of the four forms is one write of its source to its destination
(R131 to R134), and such a write keeps everything else. -/

namespace Sys2Proof.Machine

/-! ## Each form is one write -/

/-- Class (a): the source is read, and both operands resolved, in the state before the write (R131; 40_operands.md
R120). -/
theorem exec_movRm (d : Dir) (w : Width) (reg : RegCode) (rm : Rm) (s : State) :
    exec (.movRm d w reg rm) s = .next (advance (.movRm d w reg rm)
      (writePlace w (destPlace d reg rm s.regs) (readPlace w (srcPlace d reg rm s.regs) s) s)) := rfl

/-- Class (b), R132. -/
theorem exec_movRmImm (rm : Rm) (imm : Imm) (s : State) :
    exec (.movRmImm rm imm) s =
      .next (advance (.movRmImm rm imm) (writePlace imm.width (resolve rm s.regs) imm.val s)) := rfl

/-- Class (c), R133. -/
theorem exec_movRegImm (reg : RegCode) (imm : Imm) (s : State) :
    exec (.movRegImm reg imm) s =
      .next (advance (.movRegImm reg imm) (writePlace imm.width (.reg reg) imm.val s)) := rfl

/-- Class (d): the destination is the accumulator (R134). -/
theorem exec_movAcc (w : Width) (addr : Word) (s : State) :
    exec (.movAcc w addr) s =
      .next (advance (.movAcc w addr) (writePlace w (.reg .r0) (memRead w addr s.mem) s)) := rfl

/-! ## What one write and the end of an instruction do -/

theorem flagsKept_advance_writePlace (r : Record) (w : Width) (p : Place) (v : BitVec w.bits) (s : State) :
    FlagsKept s (advance r (writePlace w p v s)) :=
  ⟨writePlace_sf w p v s, writePlace_zf w p v s⟩

/-- An instruction that writes `v` to the place `p`, and nothing else, before it falls through: `p` then holds `v`, and
every other register, half and byte and both flags are as before (R130). -/
theorem copy_of_exec_eq_write {i : Instr} {w : Width} {p : Place} {v : BitVec w.bits} {s : State}
    (h : exec i s = .next (advance i.record (writePlace w p v s))) :
    ∃ t, exec i s = .next t ∧ readPlace w p t = v ∧ Untouched w (some p) s t ∧ FlagsKept s t ∧
      FellThrough i (recordEffect i.record) s t := by
  refine ⟨_, h, ?holds, untouched_of_write rfl rfl, flagsKept_advance_writePlace i.record w p v s,
    fellThrough_advance i (writePlace_sameControl w p v s)⟩
  case holds => rw [readPlace_advance, readPlace_writePlace_same]

/-! ## The statement -/

/-- Settles O11: each form writes one place, the register of the last two forms being the place `.reg`. -/
theorem movCopiesAndTouchesNoFlag : Obligations.MovCopiesAndTouchesNoFlag :=
  ⟨fun d w reg rm s => copy_of_exec_eq_write (exec_movRm d w reg rm s),
   fun rm imm s => copy_of_exec_eq_write (exec_movRmImm rm imm s),
   fun reg imm s => copy_of_exec_eq_write (exec_movRegImm reg imm s),
   fun w addr s => copy_of_exec_eq_write (exec_movAcc w addr s)⟩

end Sys2Proof.Machine
end

section
/-! SUPPORT. The jumps' statements (43_jumps.md): JNZ ends at the target its flag selects (R162), and the nineteen other
jumps and loops are one and the same fall-through (R182). -/

namespace Sys2Proof.Machine

/-! ## JNZ -/

/-- The PC that JNZ leaves (R162): the fall-through when ZF is set, else the target. -/
def jnzNextPc (disp : Byte) (s : State) : Word :=
  if s.zf then fallthrough (.jcc .nz disp) s.pc else jumpTarget disp s.pc

theorem jnzNextPc_of_clear {s : State} (hz : s.zf = false) (disp : Byte) :
    jnzNextPc disp s = jumpTarget disp s.pc := by simp [jnzNextPc, hz]

theorem jnzNextPc_of_set {s : State} (hz : s.zf = true) (disp : Byte) :
    jnzNextPc disp s = fallthrough (.jcc .nz disp) s.pc := by simp [jnzNextPc, hz]

/-- Both branches of JNZ retire its record; the flag selects the cost and the PC. -/
theorem exec_jnz (disp : Byte) (s : State) :
    exec (.jnz disp) s = .next (retire (.jcc .nz disp) (!s.zf) (jnzNextPc disp s) s) := by
  cases hz : s.zf
  case false => simp [exec, execJnz, jnzNextPc_of_clear, hz]
  case true => simp [exec, execJnz, jnzNextPc_of_set, hz, advance_eq]

/-! ## A conditional jump without its displacement byte -/

/-- Class (h) needs one byte after its opcode byte (R83, R90). -/
theorem decode_jcc_alone (cc : Cond) : decode [(Opcode.h cc).byte] = .truncated := by
  simp [decode, classify_byte, takeRecord, takeByte]

theorem step_of_truncated {s : State} (hok : s.startOk = true) (hst : s.st = .running)
    (hd : decode s.bytesAtPc = .truncated) : step s = .next (raiseFatal .decodeTruncated s) := by
  simp [step, fetch, hok, hst, hd]

/-! ## The jumps and loops without effect -/

/-- `notTaken` of a two-byte record marked NoEffect: PC moves by two, and the flags and CX are neither read nor written
(R182). -/
theorem fallsThrough_of_exec_eq_notTaken {i : Instr} {s : State} {cost : Nat}
    (hexec : exec i s = notTaken i.record s) (hlen : i.len = 2) (hcost : i.record.cost s.cycles false = cost)
    (hmark : recordEffect i.record = .noEffect) :
    ∃ t, exec i s = .next t ∧ t.pc.toNat = (s.pc.toNat + 2) % 65536 ∧ t.cyc = s.cyc + cost ∧
      t.regs = s.regs ∧ t.mem = s.mem ∧ FlagsKept s t ∧ ControlKept s t ∧
      t.trace = s.trace ++ [.instr s.pc i.record .noEffect] := by
  obtain ⟨hpc, ⟨hcyc, htrace⟩, hcontrol⟩ := fellThrough_advance i (.refl s)
  rw [hlen] at hpc
  rw [hcost] at hcyc
  rw [hmark] at htrace
  exact ⟨advance i.record s, hexec, hpc, hcyc, rfl, rfl, ⟨rfl, rfl⟩, hcontrol, htrace⟩

/-! ## The statements -/

/-- Settles O19: JNZ retires its record at the PC its flag selects, which is then read as a number; its bytes are those
of class (h). -/
theorem jnzBranchesExactlyWhenZfIsClear : Obligations.JnzBranchesExactlyWhenZfIsClear := by
  refine ⟨?exec, decode_jcc .nz, ?alone⟩
  case exec =>
    intro disp s
    refine ⟨_, exec_jnz disp s, ?target, ?next, ?cost, rfl, rfl, ⟨rfl, rfl⟩, ⟨rfl, rfl, rfl, rfl⟩, rfl⟩
    case target =>
      intro hz
      rw [retire_pc, jnzNextPc_of_clear hz, jumpTarget_toNat]
    case next =>
      intro hz
      rw [retire_pc, jnzNextPc_of_set hz, fallthrough_toNat, Record.len]
    case cost =>
      rw [retire_cyc, cost_jcc]
      cases s.zf <;> rfl
  case alone =>
    intro s hok hst hbytes
    exact step_of_truncated hok hst (hbytes ▸ decode_jcc_alone .nz)

/-- Settles O20: each of the nineteen is `notTaken` of its own two-byte record. -/
theorem nineteenJumpsOnlyFallThrough : Obligations.NineteenJumpsOnlyFallThrough := by
  intro d s i cost hmem
  simp only [List.mem_cons, Prod.mk.injEq, List.not_mem_nil, or_false] at hmem
  rcases hmem with
    ⟨rfl, rfl⟩ | ⟨rfl, rfl⟩ | ⟨rfl, rfl⟩ | ⟨rfl, rfl⟩ | ⟨rfl, rfl⟩ | ⟨rfl, rfl⟩ | ⟨rfl, rfl⟩ | ⟨rfl, rfl⟩ |
    ⟨rfl, rfl⟩ | ⟨rfl, rfl⟩ | ⟨rfl, rfl⟩ | ⟨rfl, rfl⟩ | ⟨rfl, rfl⟩ | ⟨rfl, rfl⟩ | ⟨rfl, rfl⟩ | ⟨rfl, rfl⟩ |
    ⟨rfl, rfl⟩ | ⟨rfl, rfl⟩ | ⟨rfl, rfl⟩
  all_goals exact fallsThrough_of_exec_eq_notTaken rfl rfl rfl rfl

end Sys2Proof.Machine
end

section
/-! SUPPORT. The cycle cost's statements (44_cycle_cost.md): no figure of the table reaches execution (R196), the cost
is added once (R190), and the cost lookup's two components follow their tables (R191 to R193). -/

namespace Sys2Proof.Machine

/-! ## States without their cycle figures -/

@[simp] theorem State.sansCycles_regs (s : State) : s.sansCycles.regs = s.regs := rfl
@[simp] theorem State.sansCycles_pc (s : State) : s.sansCycles.pc = s.pc := rfl
@[simp] theorem State.sansCycles_zf (s : State) : s.sansCycles.zf = s.zf := rfl
@[simp] theorem State.sansCycles_mem (s : State) : s.sansCycles.mem = s.mem := rfl
@[simp] theorem State.sansCycles_len (s : State) : s.sansCycles.len = s.len := rfl

@[simp] theorem TraceRecord.sansCycles_sansCycles (r : TraceRecord) : r.sansCycles.sansCycles = r.sansCycles := by
  cases r <;> rfl

@[simp] theorem State.sansCycles_sansCycles (s : State) : s.sansCycles.sansCycles = s.sansCycles := by
  simp [State.sansCycles]

/-! ## Each shared operation on a state without its cycle figures -/

@[simp] theorem readPlace_sansCycles (w : Width) (p : Place) (s : State) :
    readPlace w p s.sansCycles = readPlace w p s := readPlace_congr w p rfl rfl

@[simp] theorem readOperand_sansCycles {w : Width} (o : Operand w) (s : State) :
    readOperand o s.sansCycles = readOperand o s := by
  cases o with
  | place p => exact readPlace_sansCycles w p s
  | imm v => rfl

@[simp] theorem writePlace_sansCycles (w : Width) (p : Place) (v : BitVec w.bits) (s : State) :
    writePlace w p v s.sansCycles = (writePlace w p v s).sansCycles := by
  cases p <;> rfl

@[simp] theorem State.withFlags_sansCycles (s : State) (sf zf : Bool) :
    s.sansCycles.withFlags sf zf = (s.withFlags sf zf).sansCycles := rfl

@[simp] theorem executeArith_sansCycles (op : AluOp) {w : Width} (dst : Place) (src : Operand w) (s : State) :
    executeArith op dst src s.sansCycles = (executeArith op dst src s).sansCycles := by
  cases h : op.writesBack <;> simp [executeArith, h]

@[simp] theorem State.withPc_sansCycles (s : State) (v : Word) :
    s.sansCycles.withPc v = (s.withPc v).sansCycles := rfl

@[simp] theorem State.withStatus_sansCycles (s : State) (x : RunStatus) (c : Option FatalEvent) :
    s.sansCycles.withStatus x c = (s.withStatus x c).sansCycles := rfl

/-- Dropping the figures from a longer trace drops them from the old records and from the new one. -/
theorem State.emit_sansCycles (s : State) (r : TraceRecord) :
    s.sansCycles.emit r.sansCycles = (s.emit r).sansCycles := by
  simp [State.emit, State.sansCycles]

/-- The dump is the one record with a cycle total, and there the total is dropped. -/
@[simp] theorem State.emitDump_sansCycles (s : State) : s.sansCycles.emitDump = s.emitDump.sansCycles :=
  s.emit_sansCycles (.dump s.dumpNow)

@[simp] theorem raiseFatal_sansCycles (e : FatalEvent) (s : State) :
    raiseFatal e s.sansCycles = (raiseFatal e s).sansCycles := by
  have hfault := (s.withStatus .faulted (some e)).emit_sansCycles (.fault e s.pc)
  rw [TraceRecord.sansCycles] at hfault
  simp [raiseFatal, hfault]

@[simp] theorem endTest_sansCycles (s : State) : endTest s.sansCycles = (endTest s).sansCycles := by
  simp only [endTest, State.sansCycles_pc, State.sansCycles_len, State.withStatus_sansCycles,
    State.emitDump_sansCycles, raiseFatal_sansCycles, apply_ite State.sansCycles]

@[simp] theorem skipUnrecognised_sansCycles (b0 : Byte) (s : State) :
    skipUnrecognised b0 s.sansCycles = (skipUnrecognised b0 s).sansCycles :=
  congrArg (State.withPc · (s.pc + 1)) (s.emit_sansCycles (.diag s.pc b0))

/-- The one operation that looks at the table adds what it finds to CYC alone (R190). -/
@[simp] theorem retire_sansCycles (r : Record) (taken : Bool) (target : Word) (s : State) :
    (retire r taken target s.sansCycles).sansCycles = (retire r taken target s).sansCycles := by
  simp [retire, State.sansCycles, State.withPc, State.emit, State.addCycles]

@[simp] theorem advance_sansCycles (r : Record) (s : State) :
    (advance r s.sansCycles).sansCycles = (advance r s).sansCycles := by
  rw [advance_eq, advance_eq, retire_sansCycles, State.sansCycles_pc]

/-! ## Outcomes without their cycle figures -/

/-- An outcome whose next state, if it has one, is without cycle table and cycle totals. -/
def outcomeSansCycles : Host.Outcome State Fault Refusal → Host.Outcome State Fault Refusal
  | .next s => .next s.sansCycles
  | .fault r => .fault r
  | .refused r => .refused r

@[simp] theorem outcomeSansCycles_next (s : State) : outcomeSansCycles (.next s) = .next s.sansCycles := rfl

@[simp] theorem outcomeSansCycles_refused (r : Refusal) : outcomeSansCycles (.refused r) = .refused r := rfl

theorem outcomeSansCycles_eq_next_iff {o : Host.Outcome State Fault Refusal} {u : State} :
    outcomeSansCycles o = .next u ↔ ∃ t, o = .next t ∧ t.sansCycles = u := by
  cases o <;> simp [outcomeSansCycles]

theorem outcomeSansCycles_eq_refused_iff {o : Host.Outcome State Fault Refusal} {r : Refusal} :
    outcomeSansCycles o = .refused r ↔ o = .refused r := by
  cases o <;> simp [outcomeSansCycles]

theorem outcomeSansCycles_thenEndTest (o : Host.Outcome State Fault Refusal) :
    outcomeSansCycles (thenEndTest o) = thenEndTest (outcomeSansCycles o) := by
  cases o with
  | next s => exact congrArg Host.Outcome.next (endTest_sansCycles s).symm
  | fault r => rfl
  | refused r => rfl

/-! ## No instruction and no step looks at the cycle figures (R196) -/

section
variable (op : ArithOp) (a : AluOp) (d : Dir) (w : Width) (reg : RegCode) (rm : Rm) (s : State)

theorem arithRm_sansCycles : outcomeSansCycles (arithRm a op d w reg rm s.sansCycles) =
    outcomeSansCycles (arithRm a op d w reg rm s) := by
  simp [arithRm]

theorem arithRmImm_sansCycles (imm : ImmS) : outcomeSansCycles (arithRmImm a op rm imm s.sansCycles) =
    outcomeSansCycles (arithRmImm a op rm imm s) := by
  simp [arithRmImm]

theorem arithAcc_sansCycles (imm : Imm) : outcomeSansCycles (arithAcc a op imm s.sansCycles) =
    outcomeSansCycles (arithAcc a op imm s) := by
  simp [arithAcc]

/-- What has no effect but to fall through, arithmetic (R146) or jump (R182). -/
theorem next_advance_sansCycles (r : Record) :
    outcomeSansCycles (.next (advance r s.sansCycles)) = outcomeSansCycles (.next (advance r s)) := by
  simp

end

theorem jnzNextPc_sansCycles (disp : Byte) (s : State) : jnzNextPc disp s.sansCycles = jnzNextPc disp s := rfl

/-- An instruction gives the same, cycle figures apart, with any cycle table and totals. -/
theorem exec_sansCycles (i : Instr) (s : State) :
    outcomeSansCycles (exec i s.sansCycles) = outcomeSansCycles (exec i s) := by
  cases i
  case movRm => simp [exec_movRm]
  case movRmImm => simp [exec_movRmImm]
  case movRegImm => simp [exec_movRegImm]
  case movAcc => simp [exec_movAcc]
  case addRm | subRm | cmpRm => exact arithRm_sansCycles _ _ _ _ _ _ s
  case addRmImm | subRmImm | cmpRmImm => exact arithRmImm_sansCycles _ _ _ s _
  case addAcc | subAcc | cmpAcc => exact arithAcc_sansCycles _ _ s _
  case jnz disp => simp [exec_jnz, jnzNextPc_sansCycles]
  -- What is left has no effect but to fall through: five operations (R146), nineteen jumps (R182).
  all_goals exact next_advance_sansCycles s _

/-- A step gives the same, cycle figures apart, with any cycle table and totals. -/
theorem step_sansCycles (s : State) : outcomeSansCycles (step s.sansCycles) = outcomeSansCycles (step s) := by
  have hfetch : fetch s.sansCycles = fetch s := fetch_congr rfl rfl rfl
  rw [step, step, hfetch]
  cases fetch s with
  | notStarted => rfl
  | ended => simp
  | truncated => simp
  | unrecognised b0 => simp
  | instr i => simp only [outcomeSansCycles_thenEndTest, exec_sansCycles]

/-! ## The cost is added once -/

/-- JNZ is taken when ZF is clear; no other instruction is (43_jumps.md R162, R182). -/
theorem exec_cyc_taken {i : Instr} {s t : State} (h : exec i s = .next t) :
    ∃ taken, (taken = true ↔ (∃ d, i = .jnz d) ∧ s.zf = false) ∧
      t.cyc = s.cyc + i.record.cost s.cycles taken := by
  by_cases hjnz : ∃ d, i = .jnz d
  · obtain ⟨d, rfl⟩ := hjnz
    rw [exec_jnz] at h
    cases h
    exact ⟨!s.zf, by simp, rfl⟩
  · obtain ⟨u, hu, -, hadv | ⟨-, -, d, hd, -⟩⟩ := exec_cases i s
    · rw [hadv] at h
      cases h
      exact ⟨false, by simp [hjnz], by simp [advance_eq, hu.cyc, hu.cycles]⟩
    · exact absurd ⟨d, hd⟩ hjnz

end Sys2Proof.Machine

namespace Sys2Proof

/-! ## The address component -/

/-- A load costs `mov_rm` and its address component (R191, R192). -/
theorem cost_load {t : CycleTable} {rm : Rm} {ea : Nat} (h : rm.eaCost? t = some ea) (k : Bool) (w : Width)
    (reg : RegCode) : Record.cost t k (.movRm .toReg w reg rm) = t.movRM + ea := cost_movRm_mem k h .toReg w reg

theorem sext16_eq_zero_iff (b : Byte) : sext16 b = 0 ↔ b = 0 := by
  rw [← BitVec.toInt_inj, ← BitVec.toInt_inj, sext16_toInt]
  rfl

theorem eaCost?_disp8_of_ne (t : CycleTable) (b : Base) {d : Byte} (hd : d ≠ 0) :
    Rm.eaCost? t (.disp8 b d) = some (b.cost t true) := by
  have hsext : sext16 d ≠ 0 := (sext16_eq_zero_iff d).not.2 hd
  rw [Rm.eaCost?, decide_eq_true hsext]

theorem eaCost?_disp16_of_ne (t : CycleTable) (b : Base) {d : Word} (hd : d ≠ 0) :
    Rm.eaCost? t (.disp16 b d) = some (b.cost t true) := by
  rw [Rm.eaCost?, decide_eq_true hd]

/-- What loads from a base cost, when its group's figures are `plain` and, with a nonzero displacement, `disp`
(R191). -/
theorem cost_load_of_group {t : CycleTable} {b : Base} {plain disp : Nat} (hplain : b.cost t false = plain)
    (hdisp : b.cost t true = disp) (k : Bool) (w : Width) (reg : RegCode) (d8 : Byte) (d16 : Word) :
    Record.cost t k (.movRm .toReg w reg (.base b)) = t.movRM + plain ∧
    (d8 ≠ 0 → Record.cost t k (.movRm .toReg w reg (.disp8 b d8)) = t.movRM + disp) ∧
    (d16 ≠ 0 → Record.cost t k (.movRm .toReg w reg (.disp16 b d16)) = t.movRM + disp) := by
  subst hplain hdisp
  exact ⟨cost_load rfl k w reg, fun hd => cost_load (eaCost?_disp8_of_ne t b hd) k w reg,
    fun hd => cost_load (eaCost?_disp16_of_ne t b hd) k w reg⟩

/-! ## The instruction component -/

theorem ArithOp.costGroup_of_ne_cmp {op : ArithOp} (h : op ≠ .cmp) : op.costGroup = .alu := by
  cases op
  case cmp => exact absurd rfl h
  all_goals rfl

end Sys2Proof

namespace Sys2Proof.Machine

/-! ## The statements -/

/-- Settles O24: both states step as the one state that either is without its cycle figures. -/
theorem cycleTableHasNoFeedback : Obligations.CycleTableHasNoFeedback := by
  intro s s' h
  have hstep : outcomeSansCycles (step s') = outcomeSansCycles (step s) := by
    rw [← step_sansCycles s', ← h, step_sansCycles]
  refine ⟨fun t ht => ?next, fun r hr => ?refused⟩
  case next =>
    rw [ht, outcomeSansCycles_next, outcomeSansCycles_eq_next_iff] at hstep
    obtain ⟨t', ht', heq⟩ := hstep
    exact ⟨t', ht', heq.symm⟩
  case refused =>
    rw [hr, outcomeSansCycles_refused] at hstep
    exact outcomeSansCycles_eq_refused_iff.1 hstep

/-- Settles O21: CYC grows by the cost, a natural number; and two records that differ in the fields named have one row
and one address component. -/
theorem costIsAddedOncePerInstruction : Obligations.CostIsAddedOncePerInstruction := by
  refine ⟨fun i s t h => ?added, ?fields⟩
  case added =>
    obtain ⟨taken, htaken, hcyc⟩ := exec_cyc_taken h
    exact ⟨taken, htaken, hcyc, hcyc ▸ Nat.le_add_right _ _⟩
  case fields =>
    intros
    exact ⟨rfl, rfl, rfl, rfl, rfl, rfl, rfl⟩

/-- Settles O22: the direct address, the two displacements of value zero, and the three groups of bases. -/
theorem addressCostFollowsTheFourGroups : Obligations.AddressCostFollowsTheFourGroups := by
  intro c w reg a d8 d16 b
  refine ⟨cost_load rfl false w reg, ?disp8, ?disp16, fun hb => ?single, fun hb => ?pair03, fun hb => ?pair12⟩
  case disp8 | disp16 => rw [cost_load rfl, cost_load rfl]; rfl
  case single | pair03 | pair12 => fin_cases hb <;> exact cost_load_of_group rfl rfl false w reg d8 d16

/-- Settles O23: one cost lemma per form; the operation's group then selects the "alu" figures. -/
theorem instructionCostFollowsTheTable : Obligations.InstructionCostFollowsTheTable := by
  intro c k w reg code rm ea imm immS a op hea hop
  have hgroup : op.costGroup = .alu := ArithOp.costGroup_of_ne_cmp hop
  refine ⟨fun d => cost_movRm_reg c k d w reg code, cost_movRm_mem k hea .toReg w reg,
    cost_movRm_mem k hea .toRm w reg, cost_movRmImm_reg c k code imm, cost_movRmImm_mem k hea imm,
    cost_movRegImm c k reg imm, cost_movAcc c k w a, fun d => ?aluRegReg, ?aluRegMem, ?aluMemReg, ?aluRegImm,
    ?aluMemImm, ?aluAccImm, fun d => cost_arithRm_reg c k .cmp d w reg code, cost_arithRm_mem k hea .cmp .toReg w reg,
    cost_arithRm_mem k hea .cmp .toRm w reg, cost_arithRmImm_reg c k .cmp code immS,
    cost_arithRmImm_mem k hea .cmp immS, cost_arithAcc c k .cmp imm⟩
  case aluRegReg => rw [cost_arithRm_reg, hgroup]; rfl
  case aluRegMem => rw [cost_arithRm_mem k hea, hgroup]; rfl
  case aluMemReg => rw [cost_arithRm_mem k hea, hgroup]; rfl
  case aluRegImm => rw [cost_arithRmImm_reg, hgroup]; rfl
  case aluMemImm => rw [cost_arithRmImm_mem k hea, hgroup]; rfl
  case aluAccImm => rw [cost_arithAcc, hgroup]; rfl

end Sys2Proof.Machine
end

section
/-! SUPPORT. The disassembly's statements (45_disassembly.md): the sign of a displacement (R215) and of a jump's target
(R216), and the lines of the spec's written-out words, of a diagnostic (R217) and of a dump (60_exceptions.md R265). -/

namespace Sys2Proof

/-! ## Signed text -/

@[simp] theorem dispText_zero : dispText 0 = "" := rfl

theorem dispText_natCast {n : Nat} (hn : 0 < n) : dispText n = " + " ++ decimal n := by
  rw [dispText, if_neg (by omega), if_pos (by omega), Int.natAbs_natCast]

theorem dispText_neg_natCast {n : Nat} (hn : 0 < n) : dispText (-n) = " - " ++ decimal n := by
  rw [dispText, if_neg (by omega), if_neg (by omega), Int.natAbs_neg, Int.natAbs_natCast]

/-- What stands between the brackets of a base and a displacement (R215). -/
theorem Rm.text_disp8 (w : Width) (b : Base) (d : Byte) :
    Rm.text w (.disp8 b d) = "[" ++ (b.text ++ dispText d.toInt) ++ "]" := by
  rw [Rm.text, ← String.append_assoc]

theorem Rm.text_disp16 (w : Width) (b : Base) (d : Word) :
    Rm.text w (.disp16 b d) = "[" ++ (b.text ++ dispText d.toInt) ++ "]" := by
  rw [Rm.text, ← String.append_assoc]

theorem jumpText_natCast {d : Byte} {n : Nat} (h : d.toInt + 2 = n) : jumpText d = "$+" ++ decimal n := by
  rw [jumpText, Int.add_comm, h, if_pos (by omega), Int.natAbs_natCast]

theorem jumpText_neg_natCast {d : Byte} {n : Nat} (hn : 0 < n) (h : d.toInt + 2 = -n) :
    jumpText d = "$-" ++ decimal n := by
  rw [jumpText, Int.add_comm, h, if_neg (by omega), Int.natAbs_neg, Int.natAbs_natCast]

end Sys2Proof

namespace Sys2Proof.Machine

/-! ## The statements -/

/-- Settles O42: the text of the signed value, at each sign, put between the brackets or after the dollar sign. -/
theorem displacementTextFollowsItsSign : Obligations.DisplacementTextFollowsItsSign := by
  intro w b d8 d16 n hn
  refine ⟨?zero8, ?zero16, fun h => ?pos8, fun h => ?neg8, fun h => ?pos16, fun h => ?neg16, jumpText_natCast,
    jumpText_neg_natCast hn⟩
  case zero8 => simp [Rm.text]
  case zero16 => simp [Rm.text]
  case pos8 => rw [Rm.text_disp8, h, dispText_natCast hn]
  case neg8 => rw [Rm.text_disp8, h, dispText_neg_natCast hn]
  case pos16 => rw [Rm.text_disp16, h, dispText_natCast hn]
  case neg16 => rw [Rm.text_disp16, h, dispText_neg_natCast hn]

/-- Settles O43: each word's bytes decode to one instruction, and its record's text is the line. -/
theorem writtenOutBytesPrintTheirLines : Obligations.WrittenOutBytesPrintTheirLines := by
  refine ⟨fun bs line h => ?words, ?diagnostic, ?dump⟩
  case words => fin_cases h <;> exact ⟨_, rfl, rfl⟩
  case diagnostic => rfl
  case dump => rfl

end Sys2Proof.Machine
end

section
/-! SUPPORT. The step's statements (46_step.md), the end of a run: how the end test decides ST (R231), how it and a
fatal event close the trace (R234, D24), and the machine invariant. -/

namespace Sys2Proof.Machine

/-! ## Taking a fatal event (60_exceptions.md R250) -/

@[simp] theorem raiseFatal_regs (e : FatalEvent) (s : State) : (raiseFatal e s).regs = s.regs := rfl
@[simp] theorem raiseFatal_pc (e : FatalEvent) (s : State) : (raiseFatal e s).pc = s.pc := rfl
@[simp] theorem raiseFatal_mem (e : FatalEvent) (s : State) : (raiseFatal e s).mem = s.mem := rfl
@[simp] theorem raiseFatal_st (e : FatalEvent) (s : State) : (raiseFatal e s).st = .faulted := rfl
@[simp] theorem raiseFatal_cause (e : FatalEvent) (s : State) : (raiseFatal e s).cause = some e := rfl
@[simp] theorem raiseFatal_len (e : FatalEvent) (s : State) : (raiseFatal e s).len = s.len := rfl
@[simp] theorem raiseFatal_causeCode (e : FatalEvent) (s : State) : (raiseFatal e s).causeCode = e.code := rfl

theorem raiseFatal_flagsKept (e : FatalEvent) (s : State) : FlagsKept s (raiseFatal e s) := ⟨rfl, rfl⟩

/-- The fault record and the dump of the state that has faulted (R264, R265). -/
theorem raiseFatal_trace (e : FatalEvent) (s : State) :
    (raiseFatal e s).trace = s.trace ++ [.fault e s.pc, .dump (raiseFatal e s).dumpNow] :=
  List.append_assoc s.trace [.fault e s.pc] [.dump (raiseFatal e s).dumpNow]

/-! ## Skipping a byte (60_exceptions.md R252) -/

@[simp] theorem skipUnrecognised_regs (b0 : Byte) (s : State) : (skipUnrecognised b0 s).regs = s.regs := rfl
@[simp] theorem skipUnrecognised_pc (b0 : Byte) (s : State) : (skipUnrecognised b0 s).pc = s.pc + 1 := rfl
@[simp] theorem skipUnrecognised_mem (b0 : Byte) (s : State) : (skipUnrecognised b0 s).mem = s.mem := rfl
@[simp] theorem skipUnrecognised_st (b0 : Byte) (s : State) : (skipUnrecognised b0 s).st = s.st := rfl
@[simp] theorem skipUnrecognised_cause (b0 : Byte) (s : State) : (skipUnrecognised b0 s).cause = s.cause := rfl
@[simp] theorem skipUnrecognised_len (b0 : Byte) (s : State) : (skipUnrecognised b0 s).len = s.len := rfl
@[simp] theorem skipUnrecognised_trace (b0 : Byte) (s : State) :
    (skipUnrecognised b0 s).trace = s.trace ++ [.diag s.pc b0] := rfl

/-! ## The end test (R231) -/

@[simp] theorem endTest_regs (s : State) : (endTest s).regs = s.regs := by
  obtain ⟨hregs, -⟩ := endTest_frame s
  exact hregs

@[simp] theorem endTest_pc (s : State) : (endTest s).pc = s.pc := by
  obtain ⟨-, hpc, -⟩ := endTest_frame s
  exact hpc

@[simp] theorem endTest_mem (s : State) : (endTest s).mem = s.mem := by
  obtain ⟨-, -, -, -, -, hmem, -⟩ := endTest_frame s
  exact hmem

theorem endTest_flagsKept (s : State) : FlagsKept s (endTest s) := by
  obtain ⟨-, -, hsf, hzf, -⟩ := endTest_frame s
  exact ⟨hsf, hzf⟩

@[simp] theorem endTest_len (s : State) : (endTest s).len = s.len := State.len_of_ibuf (endTest_ibuf s)

theorem endTest_of_lt {s : State} (h : s.pc.toNat < s.len) : endTest s = s := by
  rw [endTest, if_neg h.ne, if_neg h.not_gt]

theorem endTest_of_gt {s : State} (h : s.len < s.pc.toNat) : endTest s = raiseFatal .pcOutOfRange s := by
  rw [endTest, if_neg h.ne', if_pos h]

/-- ST after the end test of a running state: a function of PC and LEN alone. -/
theorem endTest_st {s : State} (hst : s.st = .running) :
    (s.pc.toNat = s.len ↔ (endTest s).st = .halted) ∧ (s.len < s.pc.toNat ↔ (endTest s).st = .faulted) ∧
    (s.pc.toNat < s.len ↔ (endTest s).st = .running) := by
  obtain ⟨hpc, h⟩ | ⟨hpc, h⟩ | ⟨hpc, h⟩ := endTest_cases s <;> rw [h]
  · simp [hpc]
  · simp [hpc, hpc.ne', hpc.not_gt]
  · simp [hpc, hpc.ne, hpc.not_gt, hst]

/-- A running step that is not truncated ends with the end test of a state that still runs the same program. -/
theorem step_eq_endTest {s t : State} (hst : s.st = .running) (hd : decode s.bytesAtPc ≠ .truncated)
    (h : step s = .next t) : ∃ u, u.st = .running ∧ u.len = s.len ∧ t = endTest u := by
  obtain ⟨-, ⟨hend, -⟩ | ⟨-, htrunc, -⟩ | ⟨b0, -, -, rfl⟩ | ⟨i, u, -, -, hu, rfl⟩⟩ := step_cases h
  · exact absurd hst hend
  · exact absurd htrunc hd
  · exact ⟨skipUnrecognised b0 s, hst, rfl, rfl⟩
  · obtain ⟨hcontrol, -⟩ := exec_control hu
    have hlen := hcontrol.len
    obtain ⟨hkept, -⟩ := hcontrol
    exact ⟨u, hkept.trans hst, hlen, rfl⟩

/-- A start that is not refused is below LEN, since LEN is not 0 (70_reset_and_hazards.md R283). -/
theorem start_running {p : List Byte} {t : State} (h : start p = .next t) : t.pc.toNat < t.len ∧ t.st = .running := by
  simp only [start] at h
  split at h
  case isTrue hok =>
    have hpc : (State.reset.load p).pc.toNat < (State.reset.load p).len := ((State.startOk_iff _).1 hok).1
    rw [endTest_of_lt hpc] at h
    cases h
    exact ⟨hpc, rfl⟩
  case isFalse => cases h

/-! ## The end of the trace (R234) -/

/-- `t` has emitted `before` and, once ST has left Running, what follows the last step's own record: the dump of `t`,
after the fault record where `t` has faulted (R234; 60_exceptions.md R264). -/
def State.ClosesTrace (t : State) (before : List TraceRecord) : Prop :=
  (t.st = .running → t.trace = before) ∧
  (t.st = .halted → t.trace = before ++ [.dump t.dumpNow]) ∧
  (t.st = .faulted → ∃ e, t.cause = some e ∧ t.trace = before ++ [.fault e t.pc, .dump t.dumpNow])

theorem raiseFatal_closesTrace (e : FatalEvent) (s : State) : (raiseFatal e s).ClosesTrace s.trace :=
  ⟨RunStatus.noConfusion, RunStatus.noConfusion, fun _ => ⟨e, rfl, raiseFatal_trace e s⟩⟩

theorem endTest_closesTrace {s : State} (hst : s.st = .running) : (endTest s).ClosesTrace s.trace := by
  obtain ⟨-, h⟩ | ⟨-, h⟩ | ⟨-, h⟩ := endTest_cases s <;> rw [h]
  · exact ⟨RunStatus.noConfusion, fun _ => rfl, RunStatus.noConfusion⟩
  · exact raiseFatal_closesTrace _ s
  · simp [State.ClosesTrace, hst]

/-! ## The invariant -/

@[simp] theorem dumpCount_append (x y : List TraceRecord) : dumpCount (x ++ y) = dumpCount x + dumpCount y :=
  List.countP_append

@[simp] theorem dumpCount_instr (pc : Word) (r : Record) (e : Effect) : dumpCount [.instr pc r e] = 0 := rfl
@[simp] theorem dumpCount_diag (pc : Word) (b : Byte) : dumpCount [.diag pc b] = 0 := rfl
@[simp] theorem dumpCount_dump (d : Dump) : dumpCount [.dump d] = 1 := rfl
@[simp] theorem dumpCount_fault_dump (e : FatalEvent) (pc : Word) (d : Dump) :
    dumpCount [.fault e pc, .dump d] = 1 := rfl

/-- What an invariant state is while it runs, and what the end test takes: no dump yet and no cause. -/
structure State.Unended (s : State) : Prop where
  mem   : s.mem.wf
  dumps : dumpCount s.trace = 0
  st    : s.st = .running
  cause : s.cause = none

theorem State.Inv.running {s : State} (h : s.Inv) (hok : s.startOk = true) (hst : s.st = .running) :
    s.Unended ∧ s.pc.toNat < s.len := by
  obtain ⟨hmem, hdumps, hagrees⟩ := h
  have hagrees := hagrees hok
  simp only [State.StatusAgrees, hst] at hagrees
  exact ⟨⟨hmem, by simpa [hst] using hdumps, hst, hagrees.2⟩, hagrees.1⟩

/-- A fatal event that agrees with PC keeps the invariant. -/
theorem State.Unended.raiseFatal_inv {s : State} (h : s.Unended) {e : FatalEvent}
    (he : (e = .decodeTruncated ∧ s.pc.toNat < s.len) ∨ (e = .pcOutOfRange ∧ s.len < s.pc.toNat)) :
    (raiseFatal e s).Inv := by
  refine ⟨h.mem, ?dumps, fun _ => ?agrees⟩
  case dumps => simp [raiseFatal_trace, h.dumps]
  case agrees =>
    simpa [State.StatusAgrees] using he

/-- Wherever PC stands, the end test gives ST and CAUSE the values that agree with it. -/
theorem State.Unended.endTest_inv {s : State} (h : s.Unended) : (endTest s).Inv := by
  obtain ⟨hpc, heq⟩ | ⟨hpc, heq⟩ | ⟨hpc, heq⟩ := endTest_cases s <;> rw [heq]
  · exact ⟨h.mem, by simp [h.dumps], fun _ => ⟨hpc, rfl⟩⟩
  · exact h.raiseFatal_inv (.inr ⟨rfl, hpc⟩)
  · exact ⟨h.mem, by simp [h.dumps, h.st], fun _ => by simp [State.StatusAgrees, h.st, hpc, h.cause]⟩

theorem State.Unended.of_skipUnrecognised {s : State} (h : s.Unended) (b0 : Byte) : (skipUnrecognised b0 s).Unended :=
  ⟨h.mem, by simp [h.dumps], h.st, h.cause⟩

theorem State.Unended.of_exec {s u : State} (h : s.Unended) {i : Instr} (hu : exec i s = .next u) : u.Unended := by
  obtain ⟨⟨hst, hcause, -⟩, htrace, hmem, -⟩ := exec_control hu
  exact ⟨hmem h.mem, by simp [htrace, h.dumps], hst.trans h.st, hcause.trans h.cause⟩

/-! ## The marks in the trace (60_exceptions.md R264) -/

theorem ArithOp.effect_eq_noEffect_iff (op : ArithOp) :
    ArithOp.effect op = .noEffect ↔ some op ∈ [some ArithOp.or, some .adc, some .sbb, some .and, some .xor] := by
  cases op <;> decide

theorem Cond.effect_eq_noEffect_iff (cc : Cond) : Cond.effect cc = .noEffect ↔ some cc.code.toNat ≠ some 5 := by
  cases cc <;> decide

/-- NoEffect marks the five operations, the loops and every jump but JNZ (42_arith.md R146; 43_jumps.md R182). -/
theorem recordEffect_eq_noEffect_iff (r : Record) :
    recordEffect r = .noEffect ↔ r.op? ∈ [some .or, some .adc, some .sbb, some .and, some .xor] ∨
      r.cls = 'i' ∨ (r.cls = 'h' ∧ r.cc? ≠ some 5) := by
  cases r
  case movRm | movRmImm | movRegImm | movAcc => simp [recordEffect, Record.op?, Record.cls]
  case arithRm op _ _ _ _ | arithRmImm op _ _ | arithAcc op _ =>
    simpa [recordEffect, Record.op?, Record.cls] using ArithOp.effect_eq_noEffect_iff op
  case jcc cc _ => simpa [recordEffect, Record.op?, Record.cls, Record.cc?] using Cond.effect_eq_noEffect_iff cc
  case loopj => simp [recordEffect, Record.cls]

/-! ## The statements -/

/-- Settles O33: an ended state is kept; from a running one the step raises DecodeTruncated below LEN, or ends with the
end test of a state that still runs without dump and cause. -/
theorem stepKeepsTheMachineInvariant : Obligations.StepKeepsTheMachineInvariant := by
  intro s t hinv h
  obtain ⟨hok, ⟨-, rfl⟩ | ⟨hst, -, rfl⟩ | ⟨b0, hst, -, rfl⟩ | ⟨i, u, hst, -, hu, rfl⟩⟩ := step_cases h
  · exact hinv
  · obtain ⟨hrunning, hpc⟩ := hinv.running hok hst
    exact hrunning.raiseFatal_inv (.inl ⟨rfl, hpc⟩)
  · exact ((hinv.running hok hst).1.of_skipUnrecognised b0).endTest_inv
  · exact ((hinv.running hok hst).1.of_exec hu).endTest_inv

/-- Settles O26: the end test decides ST from PC and LEN, and above LEN it raises PcOutOfRange. -/
theorem endTestDecidesTheStatus : Obligations.EndTestDecidesTheStatus := by
  refine ⟨fun s t hst hd h => ?step, fun p t h => start_running h, fun rest => rfl⟩
  case step =>
    obtain ⟨u, hu, hlen, rfl⟩ := step_eq_endTest hst hd h
    rw [endTest_pc, ← hlen]
    obtain ⟨hhalted, hfaulted, hrunning⟩ := endTest_st hu
    refine ⟨hhalted, hfaulted, hrunning, fun hpc => ?fault⟩
    rw [endTest_of_gt hpc, raiseFatal_trace]
    exact ⟨rfl, by simp⟩

/-- Settles O25: StartRefused and the end of a run are excluded, so the step is the instruction's meaning and the end
test. -/
theorem stepRunsTheDecodedInstruction : Obligations.StepRunsTheDecodedInstruction :=
  fun _ _ _ hok hst _ hd hu => step_of_instr hok hst hd hu

/-- Settles O27: the end test raises the event on the state the instruction has left. -/
theorem jumpOutOfRangeFaultsAfterCompleting : Obligations.JumpOutOfRangeFaultsAfterCompleting := by
  intro s u i hok hst hd hu hpc
  obtain ⟨hcontrol, -⟩ := exec_control hu
  have hstep := step_of_instr hok hst hd hu
  rw [endTest_of_gt (hcontrol.len.symm ▸ hpc)] at hstep
  obtain ⟨-, -, hibuf, hcycles⟩ := hcontrol
  exact ⟨_, hstep, rfl, rfl, rfl, rfl, rfl, raiseFatal_flagsKept _ u, rfl, hibuf, hcycles, raiseFatal_trace _ u⟩

/-- Settles O29: the step is the fatal event on the state as it was. -/
theorem truncatedInstructionFaultsWithNoEffect : Obligations.TruncatedInstructionFaultsWithNoEffect :=
  fun s hok hst hd => ⟨_, step_of_truncated hok hst hd, rfl, rfl, rfl, rfl, rfl, raiseFatal_flagsKept _ s, rfl, rfl,
    rfl, raiseFatal_trace _ s⟩

/-- Settles O41: the step's own record is the one made before the end test or the fatal event, which then close the
trace. -/
theorem traceGrowsByTheStepsRecords : Obligations.TraceGrowsByTheStepsRecords := by
  intro s t hst h
  obtain ⟨-, ⟨hend, -⟩ | ⟨-, hd, rfl⟩ | ⟨b0, -, hd, rfl⟩ | ⟨i, u, -, hd, hu, rfl⟩⟩ := step_cases h
  · exact absurd hst hend
  · refine ⟨[], by simp, by simp [hd], by simp [hd], ?_⟩
    rw [List.append_nil]
    exact raiseFatal_closesTrace _ s
  · exact ⟨[.diag s.pc b0], by simp [hd], by simp [hd], by simp [hd], endTest_closesTrace hst⟩
  · obtain ⟨⟨hrun, -⟩, htrace, -⟩ := exec_control hu
    refine ⟨[.instr s.pc i.record (recordEffect i.record)], by simp [hd], by simp [hd], ?mark, ?closed⟩
    case mark =>
      intro x hx
      cases hd.symm.trans hx
      exact ⟨_, rfl, recordEffect_eq_noEffect_iff i.record⟩
    case closed => exact htrace ▸ endTest_closesTrace (hrun.trans hst)

end Sys2Proof.Machine
end

section
/-! SUPPORT. The step's statements (46_step.md), what a step may write: the rows of R235's table, said once of an
instruction, and from them the three statements on flags, memory and registers. -/

namespace Sys2Proof.Machine

/-! ## The arithmetic group as one operation -/

/-- The arithmetic unit's operation, of the operations that have an effect (42_arith.md R140, R146). -/
def aluOp? : ArithOp → Option AluOp
  | .add => some .add
  | .sub => some .sub
  | .cmp => some .cmp
  | .or | .adc | .sbb | .and | .xor => none

/-- `ExecArith` of 42_arith.md R145 for all eight operations: nothing where the operation has no effect (R146). -/
def executeArithOp (op : ArithOp) {w : Width} (dst : Place) (src : Operand w) (s : State) : State :=
  match aluOp? op with
  | some a => executeArith a dst src s
  | none => s

theorem exec_arithRm (op : ArithOp) (d : Dir) (w : Width) (reg : RegCode) (rm : Rm) (s : State) :
    exec (Record.arithRm op d w reg rm).toInstr s = .next (advance (.arithRm op d w reg rm)
      (executeArithOp op (w := w) (destPlace d reg rm s.regs) (.place (srcPlace d reg rm s.regs)) s)) := by
  cases op <;> rfl

theorem exec_arithRmImm (op : ArithOp) (rm : Rm) (imm : ImmS) (s : State) :
    exec (Record.arithRmImm op rm imm).toInstr s = .next (advance (.arithRmImm op rm imm)
      (executeArithOp op (resolve rm s.regs) (.imm imm.assembled.val) s)) := by
  cases op <;> rfl

theorem exec_arithAcc (op : ArithOp) (imm : Imm) (s : State) :
    exec (Record.arithAcc op imm).toInstr s =
      .next (advance (.arithAcc op imm) (executeArithOp op accumulator (.imm imm.val) s)) := by
  cases op <;> rfl

/-- A conditional jump does no more than retire its record (43_jumps.md R162, R182). -/
theorem exec_jcc (cc : Cond) (d : Byte) (s : State) :
    ∃ taken target, exec (Record.jcc cc d).toInstr s = .next (retire (.jcc cc d) taken target s) := by
  cases cc
  case nz => exact ⟨_, _, exec_jnz d s⟩
  all_goals exact ⟨_, _, rfl⟩

theorem exec_loopj (k : LoopKind) (d : Byte) (s : State) :
    exec (Record.loopj k d).toInstr s = .next (advance (.loopj k d) s) := by
  cases k <;> rfl

/-! ## What an instruction may write (R235) -/

/-- The place an instruction's result goes to, if any, from the register values before it (41_mov.md R131 to R134;
42_arith.md R142 to R144). -/
def Record.destination? (regs : Regs) : Record → Option Place
  | .movRm d _ reg rm | .arithRm _ d _ reg rm => some (destPlace d reg rm regs)
  | .movRmImm rm _ | .arithRmImm _ rm _ => some (resolve rm regs)
  | .movRegImm reg _ => some (.reg reg)
  | .movAcc .. | .arithAcc .. => some accumulator
  | .jcc .. | .loopj .. => none

/-- From `s` to `t`, registers and memory changed in the destination of the record at most, at its width. -/
def WroteDestination (r : Record) (s t : State) : Prop :=
  ∃ w p, r.w? = some w ∧ Record.destination? s.regs r = some p ∧ Untouched w (some p) s t

/-- Neither a register nor a byte of memory changed. -/
def DataKept (s t : State) : Prop := t.regs = s.regs ∧ t.mem = s.mem

/-- R235's table, its columns for registers, memory and flags: MOV writes its destination, ADD and SUB theirs and both
flags, CMP both flags, and every other instruction none of these. -/
def Writes (r : Record) (s t : State) : Prop :=
  (r.op? = none ∧ WroteDestination r s t ∧ FlagsKept s t) ∨
  (r.op? ∈ [some .add, some .sub] ∧ WroteDestination r s t) ∨
  (r.op? = some .cmp ∧ DataKept s t) ∨
  (DataKept s t ∧ FlagsKept s t)

/-- A record with an operation, whose effect is that operation's on its own destination. -/
theorem writes_arith {r : Record} {op : ArithOp} {w : Width} {dst : Place} {s : State} (hop : r.op? = some op)
    (hw : r.w? = some w) (hdst : Record.destination? s.regs r = some dst) (src : Operand w) :
    Writes r s (advance r (executeArithOp op dst src s)) := by
  have wrote {a : AluOp} (ha : a.writesBack = true) :
      WroteDestination r s (advance r (executeArith a dst src s)) := by
    obtain ⟨hregs, hmem⟩ := executeArith_writes ha dst src s
    exact ⟨w, dst, hw, hdst, untouched_of_write hregs hmem⟩
  cases op
  case add => exact .inr (.inl ⟨by simp [hop], wrote (a := .add) rfl⟩)
  case sub => exact .inr (.inl ⟨by simp [hop], wrote (a := .sub) rfl⟩)
  case cmp => exact .inr (.inr (.inl ⟨hop, executeArith_cmp dst src s⟩))
  case or | adc | sbb | and | xor => exact .inr (.inr (.inr ⟨⟨rfl, rfl⟩, rfl, rfl⟩))

/-- A record without an operation, whose effect is one write to its own destination. -/
theorem writes_mov {r : Record} {w : Width} {dst : Place} {s : State} (hop : r.op? = none) (hw : r.w? = some w)
    (hdst : Record.destination? s.regs r = some dst) (v : BitVec w.bits) :
    Writes r s (advance r (writePlace w dst v s)) :=
  .inl ⟨hop, ⟨w, dst, hw, hdst, untouched_of_write rfl rfl⟩, flagsKept_advance_writePlace r w dst v s⟩

theorem writes_retire (r : Record) (taken : Bool) (target : Word) (s : State) :
    Writes r s (retire r taken target s) :=
  .inr (.inr (.inr ⟨⟨rfl, rfl⟩, rfl, rfl⟩))

/-- Every instruction writes what R235 allows it. -/
theorem exec_writes {i : Instr} {s t : State} (h : exec i s = .next t) : Writes i.record s t := by
  obtain ⟨r, rfl⟩ : ∃ r : Record, r.toInstr = i := ⟨i.record, i.record_toInstr⟩
  rw [Record.toInstr_record]
  cases r with
  | movRm d w reg rm => cases h; exact writes_mov rfl rfl rfl _
  | movRmImm rm imm => cases h; exact writes_mov rfl rfl rfl _
  | movRegImm reg imm => cases h; exact writes_mov rfl rfl rfl _
  | movAcc w addr => cases h; exact writes_mov rfl rfl rfl _
  | arithRm op d w reg rm => rw [exec_arithRm] at h; cases h; exact writes_arith rfl rfl rfl _
  | arithRmImm op rm imm => rw [exec_arithRmImm] at h; cases h; exact writes_arith rfl rfl rfl _
  | arithAcc op imm => rw [exec_arithAcc] at h; cases h; exact writes_arith rfl rfl rfl _
  | jcc cc d =>
    obtain ⟨taken, target, hjcc⟩ := exec_jcc cc d s
    rw [hjcc] at h
    cases h
    exact writes_retire _ taken target s
  | loopj k d => rw [exec_loopj] at h; cases h; exact writes_retire _ false _ s

/-- What changes data does so in the destination of a MOV, an ADD or a SUB. -/
theorem Writes.wroteDestination {r : Record} {s t : State} (h : Writes r s t) (hchanged : ¬ DataKept s t) :
    r.op? ∈ [none, some .add, some .sub] ∧ WroteDestination r s t := by
  obtain ⟨hop, hwrote, -⟩ | ⟨hop, hwrote⟩ | ⟨-, hkept⟩ | ⟨hkept, -⟩ := h
  · exact ⟨by simp [hop], hwrote⟩
  · exact ⟨List.mem_cons_of_mem _ hop, hwrote⟩
  · exact absurd hkept hchanged
  · exact absurd hkept hchanged

theorem Writes.op_of_flags {r : Record} {s t : State} (h : Writes r s t) (hchanged : ¬ FlagsKept s t) :
    r.op? ∈ [some .add, some .sub, some .cmp] := by
  obtain ⟨-, -, hkept⟩ | ⟨hop, -⟩ | ⟨hop, -⟩ | ⟨-, hkept⟩ := h
  · exact absurd hkept hchanged
  · exact List.mem_append_left [some .cmp] hop
  · simp [hop]
  · exact absurd hkept hchanged

/-! ## Destinations -/

/-- A destination in memory is the r/m operand, and it is not the source. -/
theorem Record.rm_of_destination_mem {r : Record} {regs : Regs} {a : Word}
    (h : Record.destination? regs r = some (.mem a)) :
    ∃ rm, r.rmOperand? = some rm ∧ resolve rm regs = .mem a ∧ r.d? ≠ some .toReg := by
  have pair {d : Dir} {reg : RegCode} {rm : Rm} (hd : destPlace d reg rm regs = .mem a) :
      resolve rm regs = .mem a ∧ some d ≠ some Dir.toReg := by
    cases d with
    | toRm => exact ⟨hd, by simp⟩
    | toReg => cases hd
  cases r with
  | movRm d w reg rm | arithRm op d w reg rm => exact ⟨rm, rfl, pair (Option.some.inj h)⟩
  | movRmImm rm imm | arithRmImm op rm imm => exact ⟨rm, rfl, Option.some.inj h, by simp [Record.d?]⟩
  | movRegImm | movAcc | arithAcc | jcc | loopj => cases h

/-- Only the jumps and the loops, classes (h) and (i), have no destination. -/
theorem Record.cls_of_destination {r : Record} {regs : Regs} {p : Place}
    (h : Record.destination? regs r = some p) : r.cls ∈ ['a', 'b', 'c', 'd', 'e', 'f', 'g'] := by
  cases r
  case jcc | loopj => cases h
  all_goals simp [Record.cls]

/-- A byte of memory that changed is one of those at the destination (20_memory.md R57). -/
theorem Untouched.address_of_changed {w : Width} {p : Place} {s t : State} (h : Untouched w (some p) s t) {a : Nat}
    (hchanged : t.mem.read a ≠ s.mem.read a) :
    ∃ addr, p = .mem addr ∧ (a = addr.toNat ∨ (w = .word ∧ a = (addr.toNat + 1) % 65536)) := by
  by_contra hno
  refine hchanged (h.bytes a fun addr haddr => ?_)
  have hout : ¬ (a = addr.toNat ∨ (w = .word ∧ a = (addr.toNat + 1) % 65536)) := fun hin =>
    hno ⟨addr, Option.some.inj haddr, hin⟩
  simpa only [not_or, not_and] using hout

/-- A slot that changed is the one of the destination register (10_state.md R24). -/
theorem Untouched.slot_of_changed {w : Width} {p : Place} {s t : State} (h : Untouched w (some p) s t) {i : Slot}
    (hchanged : t.regs.get i ≠ s.regs.get i) : ∃ c, p = .reg c ∧ (regLookup w c).index = i := by
  by_contra hno
  exact hchanged (h.slots i fun c hc hi => hno ⟨c, Option.some.inj hc, hi⟩)

/-! ## From an instruction to the step around it -/

theorem Untouched.congr {w : Width} {dst : Option Place} {s u t : State} (h : Untouched w dst s u)
    (hregs : t.regs = u.regs) (hmem : t.mem = u.mem) : Untouched w dst s t where
  slots := hregs ▸ h.slots
  half  := hregs ▸ h.half
  bytes := hmem ▸ h.bytes

theorem WroteDestination.congr {r : Record} {s u t : State} (h : WroteDestination r s u) (hregs : t.regs = u.regs)
    (hmem : t.mem = u.mem) : WroteDestination r s t := by
  obtain ⟨w, p, hw, hp, huntouched⟩ := h
  exact ⟨w, p, hw, hp, huntouched.congr hregs hmem⟩

theorem DataKept.trans {s u t : State} (h : DataKept s u) (h' : DataKept u t) : DataKept s t :=
  ⟨h'.1.trans h.1, h'.2.trans h.2⟩

theorem FlagsKept.trans {s u t : State} (h : FlagsKept s u) (h' : FlagsKept u t) : FlagsKept s t :=
  ⟨h'.1.trans h.1, h'.2.trans h.2⟩

theorem endTest_dataKept (s : State) : DataKept s (endTest s) := ⟨endTest_regs s, endTest_mem s⟩

/-- The end test adds nothing to what an instruction wrote. -/
theorem Writes.of_endTest {r : Record} {s u : State} (h : Writes r s u) : Writes r s (endTest u) := by
  have hdata := endTest_dataKept u
  have hflags := endTest_flagsKept u
  obtain ⟨hop, hwrote, hkept⟩ | ⟨hop, hwrote⟩ | ⟨hop, hkept⟩ | ⟨hkept, hkept'⟩ := h
  · exact .inl ⟨hop, hwrote.congr hdata.1 hdata.2, hkept.trans hflags⟩
  · exact .inr (.inl ⟨hop, hwrote.congr hdata.1 hdata.2⟩)
  · exact .inr (.inr (.inl ⟨hop, hkept.trans hdata⟩))
  · exact .inr (.inr (.inr ⟨hkept.trans hdata, hkept'.trans hflags⟩))

/-- A step writes registers, memory and flags as R235's table says: the instruction at PC as `Writes`, anything else
not at all. -/
theorem step_writes {s t : State} (h : step s = .next t) :
    (DataKept s t ∧ FlagsKept s t) ∨ ∃ i, decode s.bytesAtPc = .instr i ∧ Writes i.record s t := by
  obtain ⟨-, ⟨-, rfl⟩ | ⟨-, -, rfl⟩ | ⟨b0, -, -, rfl⟩ | ⟨i, u, -, hd, hu, rfl⟩⟩ := step_cases h
  · exact .inl ⟨⟨rfl, rfl⟩, rfl, rfl⟩
  · exact .inl ⟨⟨rfl, rfl⟩, raiseFatal_flagsKept _ s⟩
  · exact .inl ⟨endTest_dataKept (skipUnrecognised b0 s), endTest_flagsKept (skipUnrecognised b0 s)⟩
  · exact .inr ⟨i, hd, (exec_writes hu).of_endTest⟩

/-- A step that changes data runs a MOV, an ADD or a SUB, and changes it in the destination. -/
theorem step_wroteDestination {s t : State} (h : step s = .next t) (hchanged : ¬ DataKept s t) :
    ∃ i, decode s.bytesAtPc = .instr i ∧ i.record.op? ∈ [none, some .add, some .sub] ∧
      WroteDestination i.record s t := by
  obtain ⟨hkept, -⟩ | ⟨i, hd, hw⟩ := step_writes h
  · exact absurd hkept hchanged
  · exact ⟨i, hd, hw.wroteDestination hchanged⟩

/-! ## The statements -/

/-- Settles O36: the flags' column of the table. -/
theorem onlyAddSubCmpWriteFlags : Obligations.OnlyAddSubCmpWriteFlags := by
  intro s t h hchanged
  obtain ⟨-, hkept⟩ | ⟨i, hd, hw⟩ := step_writes h
  · exact absurd hkept hchanged
  · exact ⟨i, hd, hw.op_of_flags hchanged⟩

/-- Settles O37: the byte that changed lies at the destination, which is the r/m operand in memory. -/
theorem onlyStoresWriteMemory : Obligations.OnlyStoresWriteMemory := by
  intro s t a h hchanged
  obtain ⟨i, hd, hop, w, p, hw, hp, huntouched⟩ := step_wroteDestination h fun hkept => hchanged (hkept.2 ▸ rfl)
  obtain ⟨addr, rfl, ha⟩ := huntouched.address_of_changed hchanged
  obtain ⟨rm, hrm, hresolve, hdir⟩ := Record.rm_of_destination_mem hp
  exact ⟨i, w, rm, addr, hd, hrm, hw, hresolve, hdir, hop, ha⟩

/-- Settles O38: both slots are that of the one destination register. -/
theorem oneStepWritesAtMostOneRegister : Obligations.OneStepWritesAtMostOneRegister := by
  intro s t i j h hi hj
  obtain ⟨x, hd, hop, w, p, -, hp, huntouched⟩ := step_wroteDestination h fun hkept => hi (hkept.1 ▸ rfl)
  obtain ⟨c, rfl, rfl⟩ := huntouched.slot_of_changed hi
  obtain ⟨c', hc, rfl⟩ := huntouched.slot_of_changed hj
  cases hc
  exact ⟨rfl, x, hd, Record.cls_of_destination hp, hop⟩

end Sys2Proof.Machine
end

section
/-! SUPPORT. The step's statements (46_step.md), where a step leaves PC: not above LEN and not in place, but for a taken
JNZ (R232, R233). -/

namespace Sys2Proof

/-! ## A decoded instruction lies within the bytes (30_encoding.md R90) -/

theorem takeRm_length {b1 : Byte} {bs rest : List Byte} {rm : Rm} (h : takeRm b1 bs = some (rm, rest)) :
    bs.length = rm.dispLen + rest.length := by
  obtain ⟨-, -, rfl⟩ := takeRm_eq h
  rw [List.length_append, Rm.dispBytes_length]

theorem takeImm_length {w : Width} {bs rest : List Byte} {imm : Imm} (h : takeImm w bs = some (imm, rest)) :
    bs.length = imm.len + rest.length := by
  obtain ⟨-, rfl⟩ := takeImm_eq h
  rw [List.length_append, Imm.encoded_length]

theorem takeImmS_length {s : Bool} {w : Width} {bs rest : List Byte} {imm : ImmS}
    (h : takeImmS s w bs = some (imm, rest)) : bs.length = imm.len + rest.length := by
  obtain ⟨-, -, rfl⟩ := takeImmS_eq h
  rw [List.length_append, ImmS.encoded_length]

/-- No class is one byte long (R70). -/
theorem takeRecord_nil (oc : Opcode) : takeRecord oc [] = none := by
  cases oc with
  | c w _ | g _ w => cases w <;> rfl
  | _ => rfl

/-- The record's bytes are its first byte and some of those that follow (R89). -/
theorem len_le_of_takeRecord {oc : Opcode} {bs : List Byte} {r : Record} (h : takeRecord oc bs = some r) :
    r.len ≤ bs.length + 1 := by
  cases bs with
  | nil => rw [takeRecord_nil] at h; cases h
  | cons b1 rest =>
    rw [List.length_cons]
    cases oc with
    | a d w =>
      obtain ⟨rm, more, hrm, rfl⟩ := takeRecord_a_iff.1 h
      have hlen := takeRm_length hrm
      simp only [Record.len]
      omega
    | b w =>
      obtain ⟨rm, more, hrm, imm, more', himm, rfl⟩ := takeRecord_b_iff.1 h
      have hlen := takeRm_length hrm
      have hlen' := takeImm_length himm
      simp only [Record.len]
      omega
    | c w reg =>
      obtain ⟨imm, more, himm, rfl⟩ := takeRecord_c_iff.1 h
      have hlen := takeImm_length himm
      simp only [Record.len, List.length_cons] at *
      omega
    | d w =>
      obtain ⟨addr, more, haddr, rfl⟩ := takeRecord_d_iff.1 h
      have hlen := congrArg List.length (takeWord_eq haddr)
      simp only [Record.len, wordBytes, List.length_cons, List.length_append] at *
      omega
    | e op d w =>
      obtain ⟨rm, more, hrm, rfl⟩ := takeRecord_e_iff.1 h
      have hlen := takeRm_length hrm
      simp only [Record.len]
      omega
    | f s w =>
      obtain ⟨rm, more, hrm, imm, more', himm, rfl⟩ := takeRecord_f_iff.1 h
      have hlen := takeRm_length hrm
      have hlen' := takeImmS_length himm
      simp only [Record.len]
      omega
    | g op w =>
      obtain ⟨imm, more, himm, rfl⟩ := takeRecord_g_iff.1 h
      have hlen := takeImm_length himm
      simp only [Record.len, List.length_cons] at *
      omega
    | h cc | i k =>
      cases h
      simp [Record.len]

theorem len_le_of_decode {bs : List Byte} {i : Instr} (h : decode bs = .instr i) : i.len ≤ bs.length := by
  match bs, h with
  | b0 :: rest, h =>
    cases hc : classify b0 with
    | none => simp [decode, hc] at h
    | some oc =>
      obtain ⟨r, hr, rfl⟩ := (decode_instr_iff hc).1 h
      rw [Instr.len, Record.toInstr_record]
      exact len_le_of_takeRecord hr

end Sys2Proof

namespace Sys2Proof.Machine

theorem bytesAtPc_length (s : State) : s.bytesAtPc.length = s.len - s.pc.toNat := List.length_drop

/-- An unrecognised byte is a loaded byte (20_memory.md R51). -/
theorem pc_lt_of_unrecognised {s : State} {b0 : Byte} (h : decode s.bytesAtPc = .unrecognised b0) :
    s.pc.toNat < s.len := by
  have hne : s.bytesAtPc ≠ [] := fun hnil => by rw [hnil] at h; cases h
  have hlen := List.length_pos_iff.2 hne
  rw [bytesAtPc_length] at hlen
  omega

/-- The bytes of the instruction at PC end at LEN at most. -/
theorem pc_add_len_le {s : State} {i : Instr} (h : decode s.bytesAtPc = .instr i) : s.pc.toNat + i.len ≤ s.len := by
  have hlen := len_le_of_decode h
  rw [bytesAtPc_length] at hlen
  have hbounds := i.record.len_bounds
  rw [← Instr.len] at hbounds
  omega

/-! ## PC after an instruction -/

/-- Falling through always moves PC: no instruction is 0 or 65536 bytes long (30_encoding.md R70). -/
theorem fallthrough_ne (r : Record) (pc : Word) : fallthrough r pc ≠ pc := by
  intro h
  have hpc := congrArg BitVec.toNat h
  rw [fallthrough_toNat] at hpc
  obtain ⟨hlow, hhigh⟩ := r.len_bounds
  simp only [Config.maxInstrLen] at hhigh
  have hlt := pc.isLt
  omega

/-- A jump to itself has displacement -2 (43_jumps.md R161). -/
theorem disp_of_jumpTarget_eq {d : Byte} {pc : Word} (h : jumpTarget d pc = pc) : d = 0xFE := by
  have hpc := jumpTarget_toNat d pc
  rw [h] at hpc
  have hlow := BitVec.le_toInt d
  have hhigh := BitVec.toInt_lt (x := d)
  apply BitVec.eq_of_toInt_eq
  show d.toInt = -2
  omega

/-! ## The statements -/

/-- Settles O39: truncation leaves PC, and a byte or an instruction that lies within LEN has its successor within LEN;
LEN is at most 1024, so PC does not wrap. -/
theorem onlyATakenJnzLeavesTheProgram : Obligations.OnlyATakenJnzLeavesTheProgram := by
  intro s t hpc h hleft
  obtain ⟨hok, ⟨-, rfl⟩ | ⟨-, -, rfl⟩ | ⟨b0, -, hd, rfl⟩ | ⟨i, u, -, hd, hu, rfl⟩⟩ := step_cases h
  · exact absurd hpc hleft.not_ge
  · exact absurd hpc hleft.not_ge
  · have hlt := pc_lt_of_unrecognised hd
    rw [endTest_pc, skipUnrecognised_pc, Word.succ_toNat] at hleft
    omega
  · have hle := pc_add_len_le hd
    obtain ⟨-, hmax⟩ := (State.startOk_iff s).1 hok
    rw [endTest_pc] at hleft
    obtain ⟨-, -, -, hfall | ⟨d, rfl, hz, -⟩⟩ := exec_control hu
    · rw [hfall, fallthrough_toNat, ← Instr.len] at hleft
      omega
    · exact ⟨d, hd, hz⟩

/-- Settles O40: a truncated step ends the run, and the others move PC unless a taken JNZ targets itself. -/
theorem everyStepEndsTheRunOrMovesPc : Obligations.EveryStepEndsTheRunOrMovesPc := by
  intro s t hst h hrun hpc
  obtain ⟨-, ⟨hend, -⟩ | ⟨-, -, rfl⟩ | ⟨b0, -, -, rfl⟩ | ⟨i, u, -, hd, hu, rfl⟩⟩ := step_cases h
  · exact absurd hst hend
  · cases hrun
  · rw [endTest_pc, skipUnrecognised_pc] at hpc
    exact absurd hpc (by bv_omega)
  · rw [endTest_pc] at hpc
    obtain ⟨-, -, -, hfall | ⟨d, rfl, hz, hjump⟩⟩ := exec_control hu
    · exact absurd (hfall.symm.trans hpc) (fallthrough_ne i.record s.pc)
    · rw [disp_of_jumpTarget_eq (hjump.symm.trans hpc)] at hd
      exact ⟨hd, hz⟩

end Sys2Proof.Machine
end

section
/-! SUPPORT. The exceptions' statement (60_exceptions.md R252): how many bytes no class matches (30_encoding.md R86), and
where the step around an unrecognised byte leaves PC, CAUSE and the trace (46_step.md R231, R234). -/

namespace Sys2Proof

/-! ## The bytes that no class matches -/

theorem decode_unrecognised_iff (b0 : Byte) (rest : List Byte) :
    decode (b0 :: rest) = .unrecognised b0 ↔ classify b0 = none := by
  cases hc : classify b0 with
  | none => simp [decode, hc]
  | some oc => cases hr : takeRecord oc rest <;> simp [decode, hc, hr]

/-- Counting the numbers below `rows * cols` row by row. -/
theorem countP_range_mul (p : Nat → Bool) (rows cols : Nat) :
    (List.range (rows * cols)).countP p =
      ((List.range rows).map fun r => (List.range cols).countP fun c => p (r * cols + c)).sum := by
  induction rows with
  | zero => simp
  | succ rows ih =>
    rw [Nat.succ_mul, List.range_add, List.countP_append, List.countP_map, ih, List.range_succ, List.map_append,
      List.sum_append, List.map_singleton, List.sum_singleton]
    rfl

/-- How many bytes no class matches in each row of the first-byte map, b0[7:4] being the row's number. -/
theorem unclassified_count_of_row :
    ((List.range 16).map fun hi =>
        (List.range 16).countP fun lo => decide (classify (BitVec.ofNat 8 (hi * 16 + lo)) = none)) =
      [4, 4, 4, 4, 16, 16, 16, 0, 8, 16, 14, 0, 14, 16, 12, 16] := by decide

theorem unclassified_count :
    ((List.range 256).countP fun n => decide (classify (BitVec.ofNat 8 n) = none)) = 160 := by
  have hrows := countP_range_mul (fun n => decide (classify (BitVec.ofNat 8 n) = none)) 16 16
  rw [unclassified_count_of_row] at hrows
  exact hrows

end Sys2Proof

namespace Sys2Proof.Machine

/-! ## The step at an unrecognised byte -/

theorem step_of_unrecognised {s : State} {b0 : Byte} (hok : s.startOk = true) (hst : s.st = .running)
    (hd : decode s.bytesAtPc = .unrecognised b0) : step s = .next (endTest (skipUnrecognised b0 s)) := by
  simp [step, fetch, hok, hst, hd]

theorem skipUnrecognised_flagsKept (b0 : Byte) (s : State) : FlagsKept s (skipUnrecognised b0 s) := ⟨rfl, rfl⟩

/-- LEN counts the bytes before PC and those from PC on. -/
theorem len_eq_of_bytesAtPc {s : State} {b0 : Byte} {rest : List Byte} (h : s.bytesAtPc = b0 :: rest) :
    s.len = s.pc.toNat + 1 + rest.length := by
  have hlen := bytesAtPc_length s
  rw [h, List.length_cons] at hlen
  omega

/-- PC does not wrap past a loaded byte, LEN being at most 1024. -/
theorem skipUnrecognised_pc_toNat {s : State} (hok : s.startOk = true) (hpc : s.pc.toNat < s.len) (b0 : Byte) :
    (skipUnrecognised b0 s).pc.toNat = s.pc.toNat + 1 := by
  obtain ⟨-, hmax⟩ := (State.startOk_iff s).1 hok
  rw [skipUnrecognised_pc, Word.succ_toNat]
  omega

/-- Up to LEN the end test raises no event (R231). -/
theorem endTest_cause_of_le {s : State} (hpc : s.pc.toNat ≤ s.len) (hcause : s.cause = none) :
    (endTest s).cause = none := by
  obtain ⟨-, h⟩ | ⟨hgt, -⟩ | ⟨-, h⟩ := endTest_cases s
  · rw [h]; rfl
  · exact absurd hpc hgt.not_ge
  · rw [h, hcause]

/-! ## The statement -/

/-- Settles O28: the step is the skip and the end test, which stays below LEN where a byte follows and stands at LEN
where none does. -/
theorem unrecognisedByteIsSkipped : Obligations.UnrecognisedByteIsSkipped := by
  refine ⟨fun s b0 rest hok hst hcause hbytes hd => ?skip, ?count, fun pc b => rfl⟩
  case skip =>
    have hlen := len_eq_of_bytesAtPc hbytes
    have hpc := skipUnrecognised_pc_toNat hok (pc_lt_of_unrecognised hd) b0
    have hrun : (skipUnrecognised b0 s).st = .running := hst
    obtain ⟨hhalted, -, hrunning⟩ := endTest_st hrun
    obtain ⟨hopen, hclosed, -⟩ := endTest_closesTrace hrun
    rw [hpc, skipUnrecognised_len] at hhalted hrunning
    have hnone : (endTest (skipUnrecognised b0 s)).cause = none :=
      endTest_cause_of_le (by rw [hpc, skipUnrecognised_len]; omega) hcause
    refine ⟨_, step_of_unrecognised hok hst hd, (congrArg BitVec.toNat (endTest_pc _)).trans hpc, endTest_regs _,
      endTest_mem _, (skipUnrecognised_flagsKept b0 s).trans (endTest_flagsKept _), endTest_cyc _, endTest_ibuf _,
      endTest_cycles _, by rw [State.causeCode, hnone], fun hrest => ?more, fun hrest => ?last⟩
    case more =>
      have hpos := List.length_pos_iff.2 hrest
      have hst' := hrunning.1 (by omega)
      exact ⟨hst', hopen hst'⟩
    case last =>
      rw [hrest, List.length_nil] at hlen
      have hst' := hhalted.1 hlen.symm
      exact ⟨hst', (hclosed hst').trans (List.append_assoc _ _ _)⟩
  case count =>
    simp only [decode_unrecognised_iff]
    exact unclassified_count

end Sys2Proof.Machine
end

section
/-! SUPPORT. The encoding's statements (30_encoding.md): a record is read exactly where its bytes stand, class (b)'s
ignored bits free (R77, R93; D11). From that one equivalence: decoding undoes encoding and encoding decoding, a cut
instruction is truncated (R90), and the leading byte alone decides what is unrecognised (R75, R86). -/

namespace Sys2Proof

/-! ## The bytes of a record, class (b)'s ignored bits free -/

/-- The opcode byte's class and fields, of a record (R76 to R84). -/
def Record.opcode : Record → Opcode
  | .movRm d w _ _ => .a d w
  | .movRmImm _ imm => .b imm.width
  | .movRegImm reg imm => .c imm.width reg
  | .movAcc w _ => .d w
  | .arithRm op d w _ _ => .e op d w
  | .arithRmImm _ _ imm => .f imm.s imm.assembled.width
  | .arithAcc op imm => .g op imm.width
  | .jcc cc _ => .h cc
  | .loopj k _ => .i k

/-- The bytes of a record after its opcode byte, with `mid` in the three bits of class (b)'s addressing byte that are
not examined (R77). -/
def Record.operandBytes (mid : BitVec 3) : Record → List Byte
  | .movRm _ _ reg rm | .arithRm _ _ _ reg rm => addrByte reg.code rm :: rm.dispBytes
  | .movRmImm rm imm => addrByte mid rm :: (rm.dispBytes ++ imm.encoded)
  | .arithRmImm op rm imm => addrByte op.code rm :: (rm.dispBytes ++ imm.encoded)
  | .movRegImm _ imm | .arithAcc _ imm => imm.encoded
  | .movAcc _ addr => wordBytes addr
  | .jcc _ d | .loopj _ d => [d]

/-- The encoder's choice for the three bits is 0. -/
theorem Record.encoded_eq (r : Record) : r.encoded = r.opcode.byte :: r.operandBytes 0 := by cases r <;> rfl

/-- Outside class (b) there are no free bits. -/
theorem Record.operandBytes_of_cls_ne {r : Record} (h : r.cls ≠ 'b') (mid : BitVec 3) :
    r.operandBytes mid = r.operandBytes 0 := by
  cases r with
  | movRmImm rm imm => exact absurd rfl h
  | _ => rfl

theorem addrByte_and_modRm (mid : BitVec 3) (rm : Rm) : addrByte mid rm &&& 0xC7 = addrByte 0 rm :=
  threeFields_and_modRm rm.modCode mid rm.rmCode

/-- In class (b) they stand in the first byte after the opcode byte, and its mask 0xC7 clears them. -/
theorem Record.operandBytes_of_cls_eq {r : Record} (h : r.cls = 'b') (mid : BitVec 3) :
    ∃ b1 rest, r.operandBytes mid = b1 :: rest ∧ r.operandBytes 0 = (b1 &&& 0xC7) :: rest := by
  cases r
  case movRmImm rm imm => exact ⟨addrByte mid rm, _, rfl, by rw [addrByte_and_modRm]; rfl⟩
  all_goals simp [Record.cls] at h

theorem Record.operandBytes_length (r : Record) (mid : BitVec 3) : (r.operandBytes mid).length + 1 = r.len := by
  rw [← r.encoded_length, r.encoded_eq, List.length_cons]
  cases r <;> rfl

/-! ## Reading a record and writing its bytes -/

/-- A well-formed record is read back from its bytes, whatever the free bits and whatever follows (R93). -/
theorem takeRecord_operandBytes {r : Record} (hwf : r.wf = true) (mid : BitVec 3) (more : List Byte) :
    takeRecord r.opcode (r.operandBytes mid ++ more) = some r := by
  cases r with
  | movRm d w reg rm =>
    exact takeRecord_a_iff.2 ⟨rm, more, takeRm_encoded _ hwf more, by rw [addrByte_mid, RegCode.ofCode_code]⟩
  | movRmImm rm imm =>
    refine takeRecord_b_iff.2 ⟨rm, imm.encoded ++ more, ?_, imm, more, takeImm_encoded imm more, rfl⟩
    rw [List.append_eq, List.append_assoc, takeRm_encoded mid hwf]
  | movRegImm reg imm => exact takeRecord_c_iff.2 ⟨imm, more, takeImm_encoded imm more, rfl⟩
  | movAcc w addr => exact takeRecord_d_iff.2 ⟨addr, more, takeWord_wordBytes addr more, rfl⟩
  | arithRm op d w reg rm =>
    exact takeRecord_e_iff.2 ⟨rm, more, takeRm_encoded _ hwf more, by rw [addrByte_mid, RegCode.ofCode_code]⟩
  | arithRmImm op rm imm =>
    refine takeRecord_f_iff.2 ⟨rm, imm.encoded ++ more, ?_, imm, more, takeImmS_encoded imm more,
      by rw [addrByte_mid, ArithOp.ofCode_code]⟩
    rw [List.append_eq, List.append_assoc, takeRm_encoded op.code hwf]
  | arithAcc op imm => exact takeRecord_g_iff.2 ⟨imm, more, takeImm_encoded imm more, rfl⟩
  | jcc cc d => rfl
  | loopj k d => rfl

/-- What is read is a well-formed record of that class, and its bytes stand at the head of those read. -/
theorem bytes_of_takeRecord {oc : Opcode} {bs : List Byte} {r : Record} (h : takeRecord oc bs = some r) :
    r.wf = true ∧ r.opcode = oc ∧ ∃ mid more, bs = r.operandBytes mid ++ more := by
  cases bs with
  | nil => rw [takeRecord_nil] at h; cases h
  | cons b1 bs =>
    cases oc with
    | a d w =>
      obtain ⟨rm, more, hrm, rfl⟩ := takeRecord_a_iff.1 h
      obtain ⟨hwf, hb1, rfl⟩ := takeRm_eq hrm
      exact ⟨hwf, rfl, 0, more, by simp [Record.operandBytes, hb1]⟩
    | b w =>
      obtain ⟨rm, _, hrm, imm, more, himm, rfl⟩ := takeRecord_b_iff.1 h
      obtain ⟨hwf, hb1, rfl⟩ := takeRm_eq hrm
      obtain ⟨rfl, rfl⟩ := takeImm_eq himm
      exact ⟨hwf, rfl, b1.extractLsb' 3 3, more, by simp [Record.operandBytes, hb1]⟩
    | c w reg =>
      obtain ⟨imm, more, himm, rfl⟩ := takeRecord_c_iff.1 h
      obtain ⟨rfl, hbytes⟩ := takeImm_eq himm
      exact ⟨rfl, rfl, 0, more, hbytes⟩
    | d w =>
      obtain ⟨addr, more, haddr, rfl⟩ := takeRecord_d_iff.1 h
      exact ⟨rfl, rfl, 0, more, takeWord_eq haddr⟩
    | e op d w =>
      obtain ⟨rm, more, hrm, rfl⟩ := takeRecord_e_iff.1 h
      obtain ⟨hwf, hb1, rfl⟩ := takeRm_eq hrm
      exact ⟨hwf, rfl, 0, more, by simp [Record.operandBytes, hb1]⟩
    | f s w =>
      obtain ⟨rm, _, hrm, imm, more, himm, rfl⟩ := takeRecord_f_iff.1 h
      obtain ⟨hwf, hb1, rfl⟩ := takeRm_eq hrm
      obtain ⟨rfl, rfl, rfl⟩ := takeImmS_eq himm
      exact ⟨hwf, rfl, 0, more, by simp [Record.operandBytes, hb1]⟩
    | g op w =>
      obtain ⟨imm, more, himm, rfl⟩ := takeRecord_g_iff.1 h
      obtain ⟨rfl, hbytes⟩ := takeImm_eq himm
      exact ⟨rfl, rfl, 0, more, hbytes⟩
    | h cc | i k =>
      cases h
      exact ⟨rfl, rfl, 0, bs, rfl⟩

/-- An instruction is decoded exactly where it is well-formed and its bytes stand, with any value in class (b)'s free
bits and with anything after them. -/
theorem decode_eq_instr_iff {bs : List Byte} {i : Instr} :
    decode bs = .instr i ↔
      i.wf = true ∧ ∃ mid more, bs = i.record.opcode.byte :: (i.record.operandBytes mid ++ more) := by
  constructor
  case mp =>
    intro h
    cases bs with
    | nil => cases h
    | cons b0 bs =>
      cases hc : classify b0 with
      | none => simp [decode, hc] at h
      | some oc =>
        obtain ⟨r, hr, rfl⟩ := (decode_instr_iff hc).1 h
        obtain ⟨hwf, rfl, mid, more, rfl⟩ := bytes_of_takeRecord hr
        rw [← Instr.record_wf, Record.toInstr_record, byte_of_classify hc]
        exact ⟨hwf, mid, more, rfl⟩
  case mpr =>
    rintro ⟨hwf, mid, more, rfl⟩
    rw [← Instr.record_wf] at hwf
    exact (decode_instr_iff (classify_byte _)).2
      ⟨i.record, takeRecord_operandBytes hwf mid more, i.record_toInstr⟩

theorem decode_encode {i : Instr} (hwf : i.wf = true) (rest : List Byte) : decode (encode i ++ rest) = .instr i :=
  decode_eq_instr_iff.2 ⟨hwf, 0, rest, by rw [encode, Record.encoded_eq, List.cons_append]⟩

theorem decode_of_eq_encode {bs : List Byte} {i : Instr} (hwf : i.wf = true) (h : bs = encode i) :
    decode bs = .instr i := by
  have hd := decode_encode hwf []
  rwa [List.append_nil, ← h] at hd

/-- Bytes beyond a decoded instruction do not change it. -/
theorem decode_append {bs : List Byte} {i : Instr} (h : decode bs = .instr i) (more : List Byte) :
    decode (bs ++ more) = .instr i := by
  obtain ⟨hwf, mid, rest, rfl⟩ := decode_eq_instr_iff.1 h
  exact decode_eq_instr_iff.2 ⟨hwf, mid, rest ++ more, by simp⟩

theorem decode_ne_unrecognised {b0 : Byte} {oc : Opcode} (hc : classify b0 = some oc) {bs : List Byte} {b : Byte} :
    decode (b0 :: bs) ≠ .unrecognised b := by
  cases hr : takeRecord oc bs <;> simp [decode, hc, hr]

/-- A decoded instruction takes its length of the bytes. -/
theorem take_len_of_decode {bs : List Byte} {i : Instr} (h : decode bs = .instr i) :
    ∃ mid, bs.take i.len = i.record.opcode.byte :: i.record.operandBytes mid := by
  obtain ⟨-, mid, more, rfl⟩ := decode_eq_instr_iff.1 h
  exact ⟨mid, by rw [Instr.len, ← i.record.operandBytes_length mid, List.take_succ_cons, List.take_left]⟩

/-! ## The bits that are not examined (R77) -/

theorem threeFields_or_middle : ∀ md mid rm,
    threeFields md 0 rm ||| ((mid : BitVec 3).setWidth 8 <<< 3) = threeFields md mid rm := by decide

/-- Replacing b1[5:3], as the statements write it, in terms of the three fields. -/
theorem replace_middle (b1 : Byte) (mid : BitVec 3) :
    b1 &&& (0xC7 : Byte) ||| mid.setWidth 8 <<< 3 =
      threeFields (bit (b1.getLsbD 7) ++ bit (b1.getLsbD 6)) mid (b1.extractLsb' 0 3) := by
  conv_lhs => rw [← threeFields_parts b1]
  rw [threeFields_and_modRm, threeFields_or_middle]

/-- The r/m operand is a matter of mod and rm alone (R72, R73). -/
theorem takeRm_threeFields (md : BitVec 2) (mid mid' rm : BitVec 3) (bs : List Byte) :
    takeRm (threeFields md mid rm) bs = takeRm (threeFields md mid' rm) bs := by
  obtain ⟨h0, -, h6, h7⟩ := threeFields_fields md mid rm
  obtain ⟨h0', -, h6', h7'⟩ := threeFields_fields md mid' rm
  rw [takeRm, takeRm, h0, h6, h7, h0', h6', h7']

theorem takeRm_replace_middle (b1 : Byte) (mid : BitVec 3) (bs : List Byte) :
    takeRm (b1 &&& (0xC7 : Byte) ||| mid.setWidth 8 <<< 3) bs = takeRm b1 bs := by
  rw [replace_middle, takeRm_threeFields _ mid (b1.extractLsb' 3 3), threeFields_parts]

/-- Class (b) looks at its addressing byte through the r/m operand only. -/
theorem takeRecord_b_congr {b1 b1' : Byte} {bs : List Byte} (h : takeRm b1 bs = takeRm b1' bs) (w : Width) :
    takeRecord (.b w) (b1 :: bs) = takeRecord (.b w) (b1' :: bs) := by
  simp only [takeRecord, takeByte, Option.bind_eq_bind, Option.bind_some, h]

theorem decode_congr {b0 : Byte} {oc : Opcode} (hc : classify b0 = some oc) {bs bs' : List Byte}
    (h : takeRecord oc bs = takeRecord oc bs') : decode (b0 :: bs) = decode (b0 :: bs') := by
  simp only [decode, hc, h]

/-! ## Which leading bytes no class matches (R75, R86) -/

theorem classify_eq_none_iff (b0 : Byte) : classify b0 = none ↔
    ¬ (b0 &&& 0xFC = 0x88 ∨ b0 &&& 0xFE = 0xC6 ∨ b0 &&& 0xF0 = 0xB0 ∨ b0 &&& 0xFE = 0xA0 ∨ b0 &&& 0xC4 = 0x00 ∨
       b0 &&& 0xFC = 0x80 ∨ b0 &&& 0xC6 = 0x04 ∨ b0 &&& 0xF0 = 0x70 ∨ b0 &&& 0xFC = 0xE0) := by
  simp only [classify, ite_eq_iff, reduceCtorEq, and_false, false_or, and_true, not_or]

/-! ## The statements -/

/-- Settles O1: the bytes of the encoding are the instruction's, with 0 in the free bits. -/
theorem decodeOfEncodeIsTheInstruction : Obligations.DecodeOfEncodeIsTheInstruction :=
  fun _ rest hwf => decode_encode hwf rest

/-- Settles O2: the bytes are the instruction's, and its encoding differs from them in the free bits of class (b) at
most. -/
theorem bytesThatDecodeAreTheEncoding : Obligations.BytesThatDecodeAreTheEncoding := by
  intro bs i h
  obtain ⟨hwf, -⟩ := decode_eq_instr_iff.1 h
  obtain ⟨mid, htake⟩ := take_len_of_decode h
  refine ⟨hwf, len_le_of_decode h, fun hcls => ?exact, fun hcls => ?free⟩
  case exact => rw [htake, encode, Record.encoded_eq, Record.operandBytes_of_cls_ne hcls]
  case free =>
    obtain ⟨b1, rest, hbytes, hencoded⟩ := Record.operandBytes_of_cls_eq hcls mid
    exact ⟨_, b1, rest, by rw [htake, hbytes], by rw [encode, Record.encoded_eq, hencoded]⟩

/-- Settles O4: the opcode byte is recognised, so what does not decode is truncated; and were the cut bytes to decode,
they would to the instruction itself, whose length they do not have. -/
theorem everyProperPrefixIsTruncated : Obligations.EveryProperPrefixIsTruncated := by
  intro i k hwf hk
  cases hd : decode ((encode i).take k) with
  | truncated => rfl
  | unrecognised b0 =>
    cases k with
    | zero => cases hd
    | succ k =>
      rw [encode, Record.encoded_eq, List.take_succ_cons] at hd
      exact absurd hd (decode_ne_unrecognised (classify_byte _))
  | instr j =>
    have hwhole : decode (encode i) = .instr j := List.take_append_drop k (encode i) ▸ decode_append hd _
    have hself := decode_encode hwf []
    rw [List.append_nil, hwhole] at hself
    cases hself
    have hlen := len_le_of_decode hd
    rw [List.length_take] at hlen
    omega

/-- Settles O5: both addressing bytes give one r/m operand, which is all that class (b) takes from them. -/
theorem classBIgnoresTheMiddleField : Obligations.ClassBIgnoresTheMiddleField := by
  intro w b1 mid rest
  have hc : ∀ w : Bool, classify (0xC6 ||| (bit w).setWidth 8) = some (.b (.ofBit w)) := by decide
  exact decode_congr (hc w) (takeRecord_b_congr (takeRm_replace_middle b1 mid rest).symm (.ofBit w))

/-- Settles O3: an unrecognised byte is one that no class matches, and the classes are the nine tests. -/
theorem unrecognisedExactlyWhereNoMaskMatches : Obligations.UnrecognisedExactlyWhereNoMaskMatches :=
  fun b0 rest => (decode_unrecognised_iff b0 rest).trans (classify_eq_none_iff b0)

/-- Settles O6: thirteen of the words are encodings, and the last begins with a byte of no class. -/
theorem writtenOutWordsDecode : Obligations.WrittenOutWordsDecode :=
  ⟨decode_of_eq_encode rfl rfl, decode_of_eq_encode rfl rfl, decode_of_eq_encode rfl rfl,
   decode_of_eq_encode rfl rfl, decode_of_eq_encode rfl rfl, decode_of_eq_encode rfl rfl,
   decode_of_eq_encode rfl rfl, decode_of_eq_encode rfl rfl, decode_of_eq_encode rfl rfl,
   decode_of_eq_encode rfl rfl, decode_of_eq_encode rfl rfl, decode_of_eq_encode rfl rfl,
   decode_of_eq_encode rfl rfl, (decode_unrecognised_iff 0xA2 _).2 rfl⟩

end Sys2Proof
end

section
/-! SUPPORT. The arithmetic group's statements (42_arith.md): the three forms of ADD, SUB and CMP are the arithmetic
unit on a destination and a source (R142 to R145), the other five operations are no effect at all (R146), and the
sign-extend bit is no part of a byte immediate (30_encoding.md R74). -/

namespace Sys2Proof.Machine

/-! ## The exact result -/

/-- The exact number that an operation's result narrows: destination plus or minus source (R140, R155). -/
def AluOp.exact : AluOp → Int → Int → Int
  | .add, x, y => x + y
  | .sub, x, y | .cmp, x, y => x - y

theorem alu_narrowed (op : AluOp) {w : Width} (a b : BitVec w.bits) {y : Int}
    (hy : (b.toNat : Int) % 2 ^ w.bits = y % 2 ^ w.bits) :
    ((alu op a b).toNat : Int) = narrowed w (op.exact a.toNat y) := by
  cases op with
  | add => exact alu_add_narrowed a b hy
  | sub | cmp => exact alu_sub_narrowed a b hy

theorem immValue_eq (imm : Imm) : (imm.val.toNat : Int) = immValue imm := by cases imm <;> rfl

/-! ## What the arithmetic unit and the end of an instruction do -/

section
variable {i : Instr} {op : AluOp} {w : Width} {dst : Place} {src : Operand w} {s : State} {y : Int}

/-- Both flags describe the exact result, of all three operations (R141). -/
theorem flagsFrom_advance_executeArith (hy : ((readOperand src s).toNat : Int) % 2 ^ w.bits = y % 2 ^ w.bits)
    (r : Record) :
    FlagsFrom w (op.exact (readPlace w dst s).toNat y) (advance r (executeArith op dst src s)) := by
  obtain ⟨hsf, hzf⟩ := executeArith_flags op dst src s
  exact flagsFrom_of_result (alu_narrowed op _ _ hy) hsf hzf

/-- The destination of an operation that writes back holds the exact result, narrowed (R145). -/
theorem holds_advance_executeArith (hop : op.writesBack = true)
    (hy : ((readOperand src s).toNat : Int) % 2 ^ w.bits = y % 2 ^ w.bits) (r : Record) :
    Holds w dst (op.exact (readPlace w dst s).toNat y) (advance r (executeArith op dst src s)) := by
  obtain ⟨hregs, hmem⟩ := executeArith_writes hop dst src s
  rw [Holds, readPlace_advance, readPlace_congr w dst hregs hmem, readPlace_writePlace_same, alu_narrowed op _ _ hy]

/-- An instruction that is ADD or SUB of a source of value `y` to the place `dst`: the destination and both flags, and
everything else as before (R145). -/
theorem result_of_exec_eq_executeArith (hop : op.writesBack = true)
    (hexec : exec i s = .next (advance i.record (executeArith op dst src s)))
    (hy : ((readOperand src s).toNat : Int) % 2 ^ w.bits = y % 2 ^ w.bits) :
    ∃ t, exec i s = .next t ∧
      (Holds w dst (op.exact (readPlace w dst s).toNat y) t ∧ FlagsFrom w (op.exact (readPlace w dst s).toNat y) t ∧
        Untouched w (some dst) s t) ∧
      FellThrough i (recordEffect i.record) s t := by
  obtain ⟨hregs, hmem⟩ := executeArith_writes hop dst src s
  exact ⟨_, hexec, ⟨holds_advance_executeArith hop hy i.record, flagsFrom_advance_executeArith hy i.record,
    untouched_of_write hregs hmem⟩, fellThrough_advance i (executeArith_sameControl op dst src s)⟩

/-- An instruction that is CMP of the place `dst` with a source of value `y`: both flags, and nothing is written
(R145, R154). -/
theorem result_of_exec_eq_cmp (hexec : exec i s = .next (advance i.record (executeArith .cmp dst src s)))
    (hy : ((readOperand src s).toNat : Int) % 2 ^ w.bits = y % 2 ^ w.bits) :
    ∃ t, exec i s = .next t ∧ FlagsFrom w ((readPlace w dst s).toNat - y) t ∧ Untouched w none s t ∧
      FellThrough i (recordEffect i.record) s t := by
  obtain ⟨hregs, hmem⟩ := executeArith_cmp dst src s
  exact ⟨_, hexec, flagsFrom_advance_executeArith (op := .cmp) hy i.record, untouched_of_eq hregs hmem,
    fellThrough_advance i (executeArith_sameControl .cmp dst src s)⟩

/-- CMP and SUB of the same operands: one subtraction gives both their flags, and CMP keeps the data (R141, R145). -/
theorem cmp_sub_of_exec_eq {j : Instr} (hi : exec i s = .next (advance i.record (executeArith .cmp dst src s)))
    (hj : exec j s = .next (advance j.record (executeArith .sub dst src s))) :
    ∃ t u, exec i s = .next t ∧ exec j s = .next u ∧ FlagsKept u t ∧ t.regs = s.regs ∧ t.mem = s.mem := by
  obtain ⟨hsf, hzf⟩ := executeArith_flags .cmp dst src s
  obtain ⟨hsf', hzf'⟩ := executeArith_flags .sub dst src s
  obtain ⟨hregs, hmem⟩ := executeArith_cmp dst src s
  exact ⟨_, _, hi, hj, ⟨hsf.trans hsf'.symm, hzf.trans hzf'.symm⟩, hregs, hmem⟩

end

/-! ## The operations without effect -/

/-- `noEffect` of a record marked NoEffect: PC, CYC and the trace alone change (R146). -/
theorem kept_of_exec_eq_noEffect {i : Instr} {s : State} (hexec : exec i s = noEffect i.record s)
    (hmark : recordEffect i.record = .noEffect) :
    ∃ t, exec i s = .next t ∧ t.regs = s.regs ∧ t.mem = s.mem ∧ FlagsKept s t ∧ FellThrough i .noEffect s t :=
  ⟨advance i.record s, hexec, rfl, rfl, ⟨rfl, rfl⟩, hmark ▸ fellThrough_advance i (.refl s)⟩

/-! ## The statements -/

/-- Settles O13: each form is the unit's addition on its destination and source, an immediate counting with its value
modulo 2^W. -/
theorem addWritesTheSumAndBothFlags : Obligations.AddWritesTheSumAndBothFlags :=
  ⟨fun d w reg rm s => result_of_exec_eq_executeArith (op := .add) rfl (exec_arithRm .add d w reg rm s) rfl,
   fun rm imm s =>
     result_of_exec_eq_executeArith (op := .add) rfl (exec_arithRmImm .add rm imm s) (immSValue_emod imm),
   fun imm s => result_of_exec_eq_executeArith (op := .add) rfl (exec_arithAcc .add imm s)
     (congrArg (· % _) (immValue_eq imm))⟩

/-- Settles O14, as O13, by the unit's subtraction. -/
theorem subWritesTheDifferenceAndBothFlags : Obligations.SubWritesTheDifferenceAndBothFlags :=
  ⟨fun d w reg rm s => result_of_exec_eq_executeArith (op := .sub) rfl (exec_arithRm .sub d w reg rm s) rfl,
   fun rm imm s =>
     result_of_exec_eq_executeArith (op := .sub) rfl (exec_arithRmImm .sub rm imm s) (immSValue_emod imm),
   fun imm s => result_of_exec_eq_executeArith (op := .sub) rfl (exec_arithAcc .sub imm s)
     (congrArg (· % _) (immValue_eq imm))⟩

/-- Settles O15: each form is the unit's comparison, which writes the flags only. -/
theorem cmpSetsBothFlagsAndWritesNothing : Obligations.CmpSetsBothFlagsAndWritesNothing :=
  ⟨fun d w reg rm s => result_of_exec_eq_cmp (exec_arithRm .cmp d w reg rm s) rfl,
   fun rm imm s => result_of_exec_eq_cmp (exec_arithRmImm .cmp rm imm s) (immSValue_emod imm),
   fun imm s => result_of_exec_eq_cmp (exec_arithAcc .cmp imm s) (congrArg (· % _) (immValue_eq imm))⟩

/-- Settles O16: in each form CMP and SUB have the same operands. -/
theorem cmpFlagsAreThoseOfSub : Obligations.CmpFlagsAreThoseOfSub :=
  ⟨fun d w reg rm s => cmp_sub_of_exec_eq (exec_arithRm .cmp d w reg rm s) (exec_arithRm .sub d w reg rm s),
   fun rm imm s => cmp_sub_of_exec_eq (exec_arithRmImm .cmp rm imm s) (exec_arithRmImm .sub rm imm s),
   fun imm s => cmp_sub_of_exec_eq (exec_arithAcc .cmp imm s) (exec_arithAcc .sub imm s)⟩

/-- Settles O17: each of the fifteen forms is `noEffect` of its own record. -/
theorem fiveOperationsHaveNoEffect : Obligations.FiveOperationsHaveNoEffect := by
  intro d w reg rm immS imm i s hmem
  simp only [List.mem_cons, List.not_mem_nil, or_false] at hmem
  rcases hmem with
    rfl | rfl | rfl | rfl | rfl | rfl | rfl | rfl | rfl | rfl | rfl | rfl | rfl | rfl | rfl
  all_goals exact kept_of_exec_eq_noEffect rfl rfl

/-- Settles O18: the assembled immediate, the cost and the length are the same with and without the bit. -/
theorem signExtendBitIsInertAtByteWidth : Obligations.SignExtendBitIsInertAtByteWidth :=
  fun op rm v s => ⟨_, _, exec_arithRmImm op rm (.byte true v) s, exec_arithRmImm op rm (.byte false v) s,
    advance_of_cost_len rfl rfl⟩

end Sys2Proof.Machine
end

section
/-! SUPPORT. The remaining statements on the state (10_state.md): byte writes as numbers (R24), reset (R36), and the
start conditions (60_exceptions.md R255; 70_reset_and_hazards.md R283). -/

namespace Sys2Proof.Machine

/-! ## Byte writes as numbers -/

theorem regWrite_byte_get (c : RegCode) (v : Byte) (r : Regs) :
    (regWrite .byte c v r).get (regLookup .byte c).index =
      (byteHalf c).write (r.get (regLookup .byte c).index) v :=
  Regs.get_set_same _ _ _

theorem Half.low_write_toNat (x : Word) (v : Byte) : (Half.low.write x v).toNat = 256 * (x.toNat / 256) + v.toNat := by
  rw [Half.write, joinBytes_toNat, highByte_toNat]

theorem Half.high_write_toNat (x : Word) (v : Byte) :
    (Half.high.write x v).toNat = 256 * v.toNat + x.toNat % 256 := by
  rw [Half.write, joinBytes_toNat, lowByte_toNat]

/-! ## Reset and start -/

theorem Regs.zero_get (i : Slot) : Regs.zero.get i = 0 := by cases i <;> rfl

/-- The start conditions fail exactly on the two lengths that R255 names. -/
theorem State.startOk_eq_false_iff (s : State) : s.startOk = false ↔ s.len = 0 ∨ 1024 < s.len := by
  rw [← Bool.not_eq_true, State.startOk_iff]
  omega

theorem step_eq_startRefused_iff (s : State) : step s = .refused .startRefused ↔ s.startOk = false := by
  cases hok : s.startOk with
  | false => simp [step, fetch, hok]
  | true =>
    obtain ⟨t, ht⟩ := step_next_of_startOk hok
    simp [ht]

theorem start_eq_startRefused_iff (p : List Byte) :
    start p = .refused .startRefused ↔ (State.reset.load p).startOk = false := by
  cases hok : (State.reset.load p).startOk <;> simp [start, hok]

/-- A program loaded after reset has no dump and no cause yet, whatever its length. -/
theorem load_reset_unended (p : List Byte) : (State.reset.load p).Unended := ⟨State.reset_mem_wf, rfl, rfl, rfl⟩

/-- A start that is not refused is the end test of the loaded program (70_reset_and_hazards.md R283). -/
theorem eq_endTest_of_start {p : List Byte} {t : State} (h : start p = .next t) :
    t = endTest (State.reset.load p) := by
  cases hok : (State.reset.load p).startOk <;> simp only [start, hok] at h <;> cases h
  rfl

/-- Nothing is loaded at reset, so the start conditions fail there and ST need not agree with PC. -/
theorem reset_inv : State.reset.Inv := ⟨State.reset_mem_wf, rfl, fun hok => absurd hok (by decide)⟩

/-! ## The statements -/

/-- Settles O8: a byte write joins the written half with the old other half, and no write leaves its slot. -/
theorem byteWritesKeepTheOtherHalf : Obligations.ByteWritesKeepTheOtherHalf := by
  intro r c v x
  refine ⟨regRead_regWrite_same .byte c v r, regRead_regWrite_same .word c x r, fun h => ?low, fun h => ?high,
    fun i hi => regWrite_get_other hi.symm v r, fun i hi => regWrite_get_other hi.symm x r⟩
  case low => rw [regWrite_byte_get, byteHalf_eq h, Half.low_write_toNat]
  case high => rw [regWrite_byte_get, byteHalf_eq h, Half.high_write_toNat]

/-- Settles O31: the step and the start make one test, which fails on exactly these lengths. -/
theorem startRefusedExactlyOnBadLength : Obligations.StartRefusedExactlyOnBadLength := by
  refine ⟨fun s => ?step, fun p => ?start, fun s h1 h2 => ?next⟩
  case step => rw [step_eq_startRefused_iff, State.startOk_eq_false_iff]
  case start => rw [start_eq_startRefused_iff, State.startOk_eq_false_iff, State.load_len]
  case next => exact step_next_of_startOk ((State.startOk_iff s).2 ⟨h1, h2⟩)

/-- Settles O32: every slot is zero, and memory has no entry, so that each byte reads as unwritten. -/
theorem resetLeavesZeroEverywhere : Obligations.ResetLeavesZeroEverywhere :=
  ⟨Regs.zero_get, rfl, rfl, rfl, rfl, rfl, fun _ => rfl, rfl, rfl⟩

/-- Settles O34: a started program is the end test of an unended state, which has the invariant wherever PC stands. -/
theorem resetAndStartHaveTheInvariant : Obligations.ResetAndStartHaveTheInvariant :=
  ⟨reset_inv, fun p _ h => eq_endTest_of_start h ▸ (load_reset_unended p).endTest_inv⟩

end Sys2Proof.Machine
end
